-- ==== Sys2Proof/Word.lean ====
section
/-! DEFINITION. The bit-level types of the spec's notation (`00_scope.md` section 6): a byte, a half, a colour. -/

namespace Sys2Proof

/-- A byte: 8 bits, unsigned (`00_scope.md` section 6). -/
abbrev Byte := BitVec 8

/-- A half: 16 bits, unsigned (`00_scope.md` section 6). -/
abbrev Half := BitVec 16

/-- A colour: three unsigned 8-bit channels, the 24-bit value `r ++ g ++ b` (`30_encoding.md` R73). -/
structure Rgb where
  r : Byte
  g : Byte
  b : Byte
  deriving DecidableEq, Repr

end Sys2Proof
end

