-- ==== Sys2Proof/Config.lean ====
section
/-! DEFINITION. The static configuration of the block: every parameter of `00_scope.md` R8 other than the four
pin-presence bits (those are state, `10_state.md` R18). A machine state carries one `Config` and no step changes it
(R19), so a claim about every state is a claim about every configuration. -/

namespace Sys2Proof

/-- `FORMAT`: the frame buffer depth, one byte (3-3-2) or two bytes (5-6-5) per pixel (R8, `30_encoding.md` R72). -/
inductive PixelFormat where
  | reduced
  | standard
  deriving DecidableEq, Repr

/-- The low bits that `EXPAND332` adds under the 3, 3 and 2 stored bits of one byte. The law of `42_pixel_codec.md`
R116 fixes the high bits of each channel and leaves exactly these open. -/
structure Fill where
  r : BitVec 5
  g : BitVec 5
  b : BitVec 6
  deriving DecidableEq, Repr

/-- The parameters of `00_scope.md` R8. Entries 0 and 6 of `ROT_TABLE` are FIXED by R8 and so are no field. -/
structure Config where
  width : Nat
  height : Nat
  colOffset : Nat
  rowOffset : Nat
  format : PixelFormat
  colorBits : Nat
  /-- `none`, or the index of the RotationTable entry to send; an index above 7 is not well-formed (R8, R184). -/
  rotation : Option Nat
  invert : Bool
  initTable : List Byte
  rot1 : Byte
  rot2 : Byte
  rot3 : Byte
  rot4 : Byte
  rot5 : Byte
  rot7 : Byte
  madctlDefault : Byte
  colmodGt16 : Byte
  colmodLe16 : Byte
  opCaset : Byte
  opRaset : Byte
  opRamwr : Byte
  opMadctl : Byte
  opColmod : Byte
  opInvon : Byte
  settleMs : Nat
  /-- `EXPAND332` as data: row `v` holds the low bits for the stored byte `v`; a byte without a row is filled with
  zeros, so the empty list is the spec's default (`42_pixel_codec.md` R114, D6). -/
  expandFill : List Fill
  deriving DecidableEq, Repr

/-- The configuration `State.reset` carries. The spec leaves every OPEN parameter without a value, so the values here
are the model's: the smallest legal geometry, no table, zero elsewhere (DESIGN CHOICE, log 3); the six opcode bytes are
R8's DEFAULTs (log 6). -/
def Config.smallest : Config where
  width := 1
  height := 1
  colOffset := 0
  rowOffset := 0
  format := .reduced
  colorBits := 0
  rotation := none
  invert := false
  initTable := []
  rot1 := 0
  rot2 := 0
  rot3 := 0
  rot4 := 0
  rot5 := 0
  rot7 := 0
  madctlDefault := 0
  colmodGt16 := 0
  colmodLe16 := 0
  opCaset := 0x2A
  opRaset := 0x2B
  opRamwr := 0x2C
  opMadctl := 0x36
  opColmod := 0x3A
  opInvon := 0x21
  settleMs := 0
  expandFill := []

end Sys2Proof
end

