-- ==== Sys2Proof/Syntax.lean ====
section
/-! DEFINITION. The instructions: one constructor per row of `opcode_table.json`, in the table's order. -/

namespace Sys2Proof

/-- One operation of the block. Table records and host requests carry only immediates (`10_state.md` R10). -/
inductive Instr where
  /-- `REC` (R92): a table record without delay. -/
  | tblRec (opc : Byte) (args : List Byte)
  /-- `REC.D` (R93): a table record with a delay byte. -/
  | tblRecD (opc : Byte) (args : List Byte) (dly : Byte)
  /-- `CMDW` (R81): command write. -/
  | cmdw (b : Byte)
  /-- `DATW` (R82): data write of one byte. -/
  | datw (b : Byte)
  /-- `BLKW` (R83): block data write. -/
  | blkw (bs : List Byte)
  /-- `SETRSTPIN` (R150). -/
  | setrstpin
  /-- `SETDCPIN` (R150). -/
  | setdcpin
  /-- `SETBLPIN` (R150). -/
  | setblpin
  /-- `SETCSPIN` (R150). -/
  | setcspin
  /-- `INITIALIZE` (R151). -/
  | initialise
  /-- `UPDATE` (R138). -/
  | update
  /-- `SETPIXEL` (R119): the coordinates are unbounded integers. -/
  | setpixel (x : Int) (y : Int) (color : Rgb)
  /-- `GETBUFLEN` (R120). -/
  | getbuflen
  /-- `CASET` step (R132). -/
  | caset
  /-- `RASET` step (R133). -/
  | raset
  /-- `RAMWR` step (R134). -/
  | ramwr
  /-- `COLMOD` step (R156). -/
  | colmod
  /-- `MADCTL` step (R157). -/
  | madctl
  /-- `INVON` step (R158). -/
  | invon
  /-- `RUNTABLE` (R94). -/
  | runtable
  /-- `RESETPULSE` (R153). -/
  | resetpulse
  /-- `SETTLE` (R154). -/
  | settle
  /-- `ALLOCATE` and `BACKLIGHT` (R159). -/
  | allocateBacklight
  /-- `WINDOW` (R131). -/
  | window
  /-- `STREAM` step (R137). -/
  | stream
  /-- `ENC332` (R111). -/
  | enc332 (color : Rgb)
  /-- `ENC565` (R112). -/
  | enc565 (color : Rgb)
  /-- `DEC565` (R113). -/
  | dec565 (p : Half)
  /-- `EXPAND332` (R114). -/
  | expand332 (v : Byte)
  /-- `REQ565` (R115). -/
  | req565 (v : Byte)
  deriving DecidableEq, Repr

end Sys2Proof
end

