-- ==== Sys2Proof/WellFormed.lean ====
section
/-! DEFINITION. Which instruction terms have an encoding. -/

namespace Sys2Proof

/-- A record carries at most 127 argument bytes, since `ARGN` is the 7-bit field `HDR[6:0]` (`30_encoding.md` R61, R62);
every other operand is legal at every value (R66, R67). -/
def Instr.wf : Instr → Bool
  | .tblRec _ args => args.length ≤ 127
  | .tblRecD _ args _ => args.length ≤ 127
  | .cmdw _ => true
  | .datw _ => true
  | .blkw _ => true
  | .setrstpin => true
  | .setdcpin => true
  | .setblpin => true
  | .setcspin => true
  | .initialise => true
  | .update => true
  | .setpixel _ _ _ => true
  | .getbuflen => true
  | .caset => true
  | .raset => true
  | .ramwr => true
  | .colmod => true
  | .madctl => true
  | .invon => true
  | .runtable => true
  | .resetpulse => true
  | .settle => true
  | .allocateBacklight => true
  | .window => true
  | .stream => true
  | .enc332 _ => true
  | .enc565 _ => true
  | .dec565 _ => true
  | .expand332 _ => true
  | .req565 _ => true

end Sys2Proof
end

