-- ==== Sys2Proof/Decode.lean ====
section
/-! DEFINITION. From bits to instructions and back (`30_encoding.md`). A `Code` is the bits of one operation in the
format that `opcode_table.json` gives its row: a record's bytes, a request's 4-bit code with its operands, the 9-bit
words of a wire frame or command. The rows without bits of their own carry a number of the model's (log 17). -/

namespace Sys2Proof

/-- `hi8(h) = h[15:8]` (`00_scope.md` section 6). -/
def hi8 (h : Half) : Byte := h.extractLsb 15 8

/-- `lo8(h) = h[7:0]` (`00_scope.md` section 6). -/
def lo8 (h : Half) : Byte := h.extractLsb 7 0

/-- `ARGN = HDR[6:0]` (R62). -/
def hdrArgn (hdr : Byte) : BitVec 7 := hdr.extractLsb 6 0

/-- `DLYF = HDR[7]` (R62). -/
def hdrDlyf (hdr : Byte) : Bool := hdr.getLsbD 7

/-- `HDR` from the delay flag and the count (R61). -/
def mkHdr (dlyf : Bool) (n : Nat) : Byte := BitVec.ofBool dlyf ++ BitVec.ofNat 7 n

/-- How many bytes of a record follow its header: the arguments, and the delay byte when `DLYF` = 1 (R64). -/
def hdrTail (hdr : Byte) : Nat := (hdrArgn hdr).toNat + (hdrDlyf hdr).toNat

/-- `RECLEN = 2 + ARGN + DLYF` (R64; `90_conflicts.md` C1). -/
def recLen (hdr : Byte) : Nat := 2 + hdrTail hdr

/-- The three frame shapes of R68. -/
inductive FrameShape where
  | command
  | data
  | block
  deriving DecidableEq, Repr

/-- The bits of one operation. -/
inductive Code where
  /-- A host request: its code (R67), its integer operands and its byte operands. -/
  | request (req : BitVec 4) (ints : List Int) (bytes : List Byte)
  /-- A table record, its first byte first (R61); bytes after the record are not read. -/
  | record (bytes : List Byte)
  /-- A wire frame (R68): each word is the `DC` level (bit 8) and the byte (bits 7 to 0). -/
  | frame (shape : FrameShape) (words : List (BitVec 9))
  /-- A wire command step, named by its row's 9-bit match value (log 17). -/
  | command (word : BitVec 9)
  /-- An internal step, numbered by the model in the table's order (log 17). -/
  | internal (n : Nat)
  /-- A pure function, numbered by the model in the table's order, and its operand bytes (log 17). -/
  | function (n : Nat) (operand : List Byte)
  /-- `nbits` bits of value `w` that no format of the table reads. -/
  | unlisted (nbits : Nat) (w : Nat)
  deriving DecidableEq, Repr

/-- Why bits are no instruction. -/
inductive Reject where
  /-- A request code 0x8 to 0xF (R67, R184). -/
  | reservedRequest (req : BitVec 4)
  /-- Operands that are not those of the request or function. -/
  | badOperands
  /-- A record longer than the bytes there are (R66 (d), R91). -/
  | recordCutOff
  /-- Words that make no frame of R68. -/
  | badFrame
  /-- A 9-bit word that is no wire command row. -/
  | unknownCommand (word : BitVec 9)
  /-- No internal step has this number. -/
  | unknownInternal (n : Nat)
  /-- No pure function has this number. -/
  | unknownFunction (n : Nat)
  /-- Bits that no format of the table reads. -/
  | unlistedBits
  deriving DecidableEq, Repr

/-- `FETCH` on the bytes from the record's first byte on (R91): the record and the bytes after it. -/
def decodeRecord : List Byte → Except Reject (Instr × List Byte)
  | opc :: hdr :: rest =>
    if rest.length < hdrTail hdr then .error .recordCutOff
    else if hdrDlyf hdr then
      .ok (.tblRecD opc (rest.take (hdrArgn hdr).toNat) (rest.getD (hdrArgn hdr).toNat 0), rest.drop (hdrTail hdr))
    else
      .ok (.tblRec opc (rest.take (hdrArgn hdr).toNat), rest.drop (hdrTail hdr))
  | _ => .error .recordCutOff

/-- The byte of a 9-bit wire word (`opcode_table.json`, rows CMDW, DATW, BLKW: bits 7 to 0). -/
def wireByte (w : BitVec 9) : Byte := w.extractLsb 7 0

/-- The level of the data/command-select line during the byte: bit 8 of a 9-bit wire word. -/
def wireDc (w : BitVec 9) : Bool := w.getLsbD 8

/-- A 9-bit wire word: the `DC` level above the byte. -/
def wireWord (dc : Bool) (b : Byte) : BitVec 9 := BitVec.ofBool dc ++ b

/-- The host requests (R67). -/
def decodeRequest (req : BitVec 4) (ints : List Int) (bytes : List Byte) : Except Reject Instr :=
  match req.toNat, ints, bytes with
  | 0, [], [] => .ok .setrstpin
  | 1, [], [] => .ok .setdcpin
  | 2, [], [] => .ok .setblpin
  | 3, [], [] => .ok .setcspin
  | 4, [], [] => .ok .initialise
  | 5, [], [] => .ok .update
  | 6, [x, y], [r, g, b] => .ok (.setpixel x y ⟨r, g, b⟩)
  | 7, [], [] => .ok .getbuflen
  | n, _, _ => if n < 8 then .error .badOperands else .error (.reservedRequest req)

/-- The wire frames (R68): a command frame is one word with `DC` = 0, a data frame one word with `DC` = 1, a block frame
any number of words with `DC` = 1. -/
def decodeFrame : FrameShape → List (BitVec 9) → Except Reject Instr
  | .command, [w] => if wireDc w then .error .badFrame else .ok (.cmdw (wireByte w))
  | .data, [w] => if wireDc w then .ok (.datw (wireByte w)) else .error .badFrame
  | .block, ws => if ws.all wireDc then .ok (.blkw (ws.map wireByte)) else .error .badFrame
  | _, _ => .error .badFrame

/-- The wire command steps, by the match value of their rows. -/
def decodeCommand (word : BitVec 9) : Except Reject Instr :=
  match word.toNat with
  | 0x02A => .ok .caset
  | 0x02B => .ok .raset
  | 0x02C => .ok .ramwr
  | 0x03A => .ok .colmod
  | 0x036 => .ok .madctl
  | 0x021 => .ok .invon
  | _ => .error (.unknownCommand word)

/-- The internal steps, by the model's number. -/
def decodeInternal : Nat → Except Reject Instr
  | 0 => .ok .runtable
  | 1 => .ok .resetpulse
  | 2 => .ok .settle
  | 3 => .ok .allocateBacklight
  | 4 => .ok .window
  | 5 => .ok .stream
  | n => .error (.unknownInternal n)

/-- The pure functions, by the model's number, with a half's operand bytes high byte first (`20_memory.md` R45). -/
def decodeFunction (n : Nat) (operand : List Byte) : Except Reject Instr :=
  match n, operand with
  | 0, [r, g, b] => .ok (.enc332 ⟨r, g, b⟩)
  | 1, [r, g, b] => .ok (.enc565 ⟨r, g, b⟩)
  | 2, [hi, lo] => .ok (.dec565 (hi ++ lo))
  | 3, [v] => .ok (.expand332 v)
  | 4, [v] => .ok (.req565 v)
  | n, _ => if n < 5 then .error .badOperands else .error (.unknownFunction n)

/-- The decoder: total, every refusal named. -/
def decode : Code → Except Reject Instr
  | .request req ints bytes => decodeRequest req ints bytes
  | .record bytes => (decodeRecord bytes).map Prod.fst
  | .frame shape words => decodeFrame shape words
  | .command word => decodeCommand word
  | .internal n => decodeInternal n
  | .function n operand => decodeFunction n operand
  | .unlisted _ _ => .error .unlistedBits

/-- The bytes of a record (R61): `OPC`, `HDR`, the arguments, and the delay byte when there is one. -/
def recordBytes (opc : Byte) (args : List Byte) (dly : Option Byte) : List Byte :=
  opc :: mkHdr dly.isSome args.length :: (args ++ dly.toList)

/-- The encoder: the bits of an instruction, from the same tables. -/
def encode : Instr → Code
  | .tblRec opc args => .record (recordBytes opc args none)
  | .tblRecD opc args dly => .record (recordBytes opc args (some dly))
  | .cmdw b => .frame .command [wireWord false b]
  | .datw b => .frame .data [wireWord true b]
  | .blkw bs => .frame .block (bs.map (wireWord true))
  | .setrstpin => .request 0x0 [] []
  | .setdcpin => .request 0x1 [] []
  | .setblpin => .request 0x2 [] []
  | .setcspin => .request 0x3 [] []
  | .initialise => .request 0x4 [] []
  | .update => .request 0x5 [] []
  | .setpixel x y c => .request 0x6 [x, y] [c.r, c.g, c.b]
  | .getbuflen => .request 0x7 [] []
  | .caset => .command 0x02A
  | .raset => .command 0x02B
  | .ramwr => .command 0x02C
  | .colmod => .command 0x03A
  | .madctl => .command 0x036
  | .invon => .command 0x021
  | .runtable => .internal 0
  | .resetpulse => .internal 1
  | .settle => .internal 2
  | .allocateBacklight => .internal 3
  | .window => .internal 4
  | .stream => .internal 5
  | .enc332 c => .function 0 [c.r, c.g, c.b]
  | .enc565 c => .function 1 [c.r, c.g, c.b]
  | .dec565 p => .function 2 [hi8 p, lo8 p]
  | .expand332 v => .function 3 [v]
  | .req565 v => .function 4 [v]

/-- The loop of `TableWF` (R65) from index `p`; each turn moves on by at least 2, so the length is fuel enough. -/
def tableWFFrom (t : List Byte) : Nat → Nat → Bool
  | fuel, p =>
    if p < t.length then
      if p + 2 > t.length then false
      else if p + recLen (t.getD (p + 1) 0) > t.length then false
      else
        match fuel with
        | 0 => false
        | fuel + 1 => tableWFFrom t fuel (p + recLen (t.getD (p + 1) 0))
    else true

/-- `TableWF(T)` (R65): repeated `RECLEN` steps from 0 land exactly on `TLEN`. No meaning tests it: the interpreter does
not validate the table (`41_command_table.md` R97). -/
def tableWF (t : List Byte) : Bool := tableWFFrom t t.length 0

/-- The format and bits that `nbits` bits of value `w` stand for, read by the table's widths: up to 8 bits a host
request (4 bits in the table), up to 16 a wire command (9 bits) where `w` is a command row's match value, else a record
header, its first table byte the high one, with zero bytes for its arguments and delay (log 18). -/
def tableWordCode (nbits w : Nat) : Code :=
  if nbits ≤ 8 then
    if w = 6 then .request 6 [0, 0] [0, 0, 0]
    else if w < 16 then .request (BitVec.ofNat 4 w) [] []
    else .unlisted nbits w
  else if nbits ≤ 16 ∧ w < 2 ^ 16 then
    if w = 0x02A ∨ w = 0x02B ∨ w = 0x02C ∨ w = 0x03A ∨ w = 0x036 ∨ w = 0x021 then .command (BitVec.ofNat 9 w)
    else
      .record (BitVec.ofNat 8 (w / 256) :: BitVec.ofNat 8 w ::
        List.replicate (hdrTail (BitVec.ofNat 8 w)) 0)
  else .unlisted nbits w

/-- The instruction the decoder reads from an instruction whose bits are `w`, numbered as `opcode_table.json` numbers
them. -/
def decodeTableWord (nbits w : Nat) : Option Instr :=
  match decode (tableWordCode nbits w) with
  | .ok i => some i
  | .error _ => none

end Sys2Proof
end

