-- ==== Sys2Proof/Machine/State.lean ====
section
/-! DEFINITION. The state of the block as plain data: every register, line and memory of `10_state.md` and
`20_memory.md`, the two observations of `00_scope.md` R7, and the model's own record of what the host has asked for. -/

namespace Sys2Proof.Machine

/-- `PHASE` (`10_state.md` R17): the five values, in their order. -/
inductive Phase where
  | uninitialized
  | resetting
  | runningInitTable
  | configured
  | ready
  deriving DecidableEq, Repr

/-- The host requests (`30_encoding.md` R67), as `F_PHASE` records them (`60_exceptions.md` R181). -/
inductive HostReq where
  | setrstpin
  | setdcpin
  | setblpin
  | setcspin
  | initialise
  | update
  | setpixel
  deriving DecidableEq, Repr

/-- A fault of the block with the information it records (`60_exceptions.md` R181): what `FAULT` holds. Taking one is
a next state, not a stop of the model (R186). -/
inductive Raised where
  /-- `F_TABLE`, code 1: the value of `TP`. -/
  | fTable (tp : Nat)
  /-- `F_PIXEL`, code 2: the coordinates. -/
  | fPixel (x : Int) (y : Int)
  /-- `F_PHASE`, code 3: the request and the phase. -/
  | fPhase (req : HostReq) (phase : Phase)
  deriving DecidableEq, Repr

/-- A level written to a line: 0 = low, 1 = high (`00_scope.md` R7). -/
inductive Level where
  | low
  | high
  deriving DecidableEq, Repr

/-- What a line register holds (`10_state.md` R22): `undriven` until the block first writes the line. -/
inductive Line where
  | undriven
  | driven (l : Level)
  deriving DecidableEq, Repr

/-- The chip-select line (`10_state.md` R22), and what a `CS` event does to it (`00_scope.md` R7). -/
inductive ChipSelect where
  | released
  | asserted
  deriving DecidableEq, Repr

/-- The output events (`00_scope.md` R7). -/
inductive Event where
  /-- `DC(l)`. -/
  | dc (l : Level)
  /-- `CS(assert)` is `cs .asserted`, `CS(release)` is `cs .released`. -/
  | cs (a : ChipSelect)
  /-- `RST(l)`. -/
  | rst (l : Level)
  /-- `BL(l)`; `high` = enabled. -/
  | bl (l : Level)
  /-- `TX(b)`. -/
  | tx (b : Byte)
  /-- `WAIT(n)`: at least `n` milliseconds pass (`70_reset_and_hazards.md` R208). -/
  | wait (ms : Nat)
  deriving DecidableEq, Repr

/-- The fields of the record being executed (`10_state.md` R14). -/
structure RecScratch where
  opc : Byte
  argn : BitVec 7
  dlyf : Bool
  dly : Byte
  deriving DecidableEq, Repr

/-- The 4-byte address scratch (`10_state.md` R15). -/
structure Addr4 where
  b0 : Byte
  b1 : Byte
  b2 : Byte
  b3 : Byte
  deriving DecidableEq, Repr

/-- The result of a codec function that was run as an operation of its own (the model's field, log 15). -/
inductive CodecOut where
  | none
  | byte (v : Byte)
  | half (p : Half)
  | channels (r5 : BitVec 5) (g6 : BitVec 6) (b5 : BitVec 5)
  | color (c : Rgb)
  deriving DecidableEq, Repr

/-- What the framer is asked to do next (the model's field, log 1). -/
inductive Item where
  /-- An operation, handed over after the one before it has returned. From the host: a request (R67). -/
  | issue (c : Code)
  /-- A request issued while another has not returned (`60_exceptions.md` R184, `R_BUSY`; log 19). -/
  | overlap (c : Code)
  /-- One turn of the interpreter's loop: the record at `TP` (`41_command_table.md` R94; log 1). -/
  | tableStep
  /-- A reset of the block (`70_reset_and_hazards.md` R200; log 20). -/
  | blockReset
  deriving DecidableEq, Repr

/-- The frame buffer's bytes: strictly rising addresses, no entry equal to 0, which is what an unlisted address reads
as, since allocation zero-fills (`20_memory.md` R43; log 16). -/
abbrev Memory := List Host.Cell

/-- The state of the block. -/
structure State where
  /-- The static configuration registers and constants (R19, R20) and the table ROM (R25); no step writes it. -/
  cfg : Config
  rstPresent : Bool
  dcPresent : Bool
  blPresent : Bool
  csPresent : Bool
  phase : Phase
  /-- `FAULT` (R21). -/
  fault : Option Raised
  /-- `TP` (R11). -/
  tp : Nat
  /-- `SP` (R12). -/
  sp : Nat
  xs : Half
  xe : Half
  ys : Half
  ye : Half
  scratch : RecScratch
  addr : Addr4
  /-- The line registers (R22). -/
  dc : Line
  cs : ChipSelect
  rst : Line
  bl : Line
  /-- `FB` (R25): `none` is `unallocated`. -/
  fb : Option Memory
  /-- The TRACE (`00_scope.md` R7), oldest event first. -/
  trace : List Event
  /-- The values returned to the host (`00_scope.md` R7), oldest first. -/
  returns : List Nat
  codec : CodecOut
  agenda : List Item
  deriving DecidableEq, Repr

/-- The model's stops that are faults: states the spec rules out, so no run of host requests from reset meets one. All
safe: the model stops where the spec gives no behaviour. -/
inductive Fault where
  /-- A framing primitive while a transaction is open: raised by the primitives and all that use them. "A primitive
  may run only when `CS` = `released`" (R80). Safe (log 10). -/
  | transactionOpen
  /-- The frame buffer is used while it does not exist: raised by `STREAM`, `UPDATE` and `SETPIXEL` (R25, R43). Safe
  (log 13). -/
  | bufferUnallocated
  /-- A buffer write outside `0 .. FBLEN - 1`: raised by the shared buffer write; R44 says it never happens. Safe
  (log 13). -/
  | bufferRange
  deriving DecidableEq, Repr

/-- Requests and operations the model gives no meaning (`60_exceptions.md` R184). All safe. -/
inductive Refusal where
  /-- No meaning yet in this model: raised by `exec` for the named row only. Safe. -/
  | notModelled (mnemonic : String)
  /-- `R_CONFIG` (R184): raised by `INITIALIZE` on a configuration that is not `ConfigWF` or without the DC or CS line,
  and by `WINDOW` and `MADCTL` where the configuration gives them no value (log 14). Safe. -/
  | rConfig
  /-- `R_REQ` (R184): a reserved request code, raised when the item is taken. Safe. -/
  | rReq (req : BitVec 4)
  /-- `R_BUSY` (R184): a request issued while another has not returned. Safe (log 19). -/
  | rBusy
  /-- A framing primitive without the data/command-select or chip-select line: "The block needs `DC_PRESENT` = 1 and
  `CS_PRESENT` = 1 for any primitive to have a meaning" (R80). Safe (log 10). -/
  | linesAbsent
  /-- Bits that are no instruction for another reason, raised when the item is taken. Safe (log 17). -/
  | badCode (e : Reject)
  deriving DecidableEq, Repr

/-- The state right after a reset of the block with configuration `c` (`10_state.md` R27, `70_reset_and_hazards.md`
R200). The window registers and the scratch are unspecified there and start at 0 here (DESIGN CHOICE, log 7). -/
def State.resetWith (c : Config) : State where
  cfg := c
  rstPresent := false
  dcPresent := false
  blPresent := false
  csPresent := false
  phase := .uninitialized
  fault := none
  tp := 0
  sp := 0
  xs := 0
  xe := 0
  ys := 0
  ye := 0
  scratch := ⟨0, 0, false, 0⟩
  addr := ⟨0, 0, 0, 0⟩
  dc := .undriven
  cs := .released
  rst := .undriven
  bl := .undriven
  fb := none
  trace := []
  returns := []
  codec := .none
  agenda := []

/-- The machine right after reset. The spec fixes the configuration before reset and gives it no value: the one here
is the model's (DESIGN CHOICE, log 3); statements are made for every configuration. -/
def State.reset : State := State.resetWith Config.smallest

end Sys2Proof.Machine
end

