-- ==== Sys2Proof/Machine/Ops.lean ====
section
/-! DEFINITION. The named operations the meanings are written with: buffer memory, output events, framed
transactions, raising a fault, resetting the block. -/

namespace Sys2Proof

/-- `BPP` (`00_scope.md` R9). -/
def Config.bpp (c : Config) : Nat :=
  match c.format with
  | .reduced => 1
  | .standard => 2

/-- `NPIX` (R9). -/
def Config.npix (c : Config) : Nat := c.width * c.height

/-- `FBLEN` (R9). -/
def Config.fblen (c : Config) : Nat := c.width * c.height * c.bpp

/-- `TLEN` (R9). -/
def Config.tlen (c : Config) : Nat := c.initTable.length

end Sys2Proof

namespace Sys2Proof.Machine

/-- One transition: a next state, or a stop. -/
abbrev Result := Host.Outcome State Fault Refusal

/-- Statements run in the order written (`00_scope.md` section 6); a stop ends the operation. -/
def andThen (r : Result) (k : State → Result) : Result :=
  match r with
  | .next t => k t
  | .fault f => .fault f
  | .refused q => .refused q

/-! ## The frame buffer memory (`20_memory.md` R43, R44) -/

/-- `FbRead`: the byte last written at `a`, or 0 if none was written since allocation (R43). -/
def Memory.read : Memory → Nat → Byte
  | [], _ => 0
  | (k, v) :: m, a => if k = a then v else Memory.read m a

/-- One byte stored, in canonical form: storing 0 removes the entry. -/
def Memory.write : Memory → Nat → Byte → Memory
  | [], a, v => if v = 0 then [] else [(a, v)]
  | (k, w) :: m, a, v =>
    if a < k then (if v = 0 then (k, w) :: m else (a, v) :: (k, w) :: m)
    else if a = k then (if v = 0 then m else (a, v) :: m)
    else (k, w) :: Memory.write m a v

/-- `FbWrite`: consecutive bytes from `a` on, first byte at `a` (R44). -/
def Memory.writeBytes : Memory → Nat → List Byte → Memory
  | m, _, [] => m
  | m, a, b :: bs => Memory.writeBytes (Memory.write m a b) (a + 1) bs

/-- The canonical form: addresses strictly rising, no zero entry. -/
def Memory.wf : Memory → Bool
  | [] => true
  | (k, v) :: m => v != 0 && m.all (fun c => decide (k < c.1)) && Memory.wf m

/-- `FbRead(a)` on the state (R43): defined for `a < FBLEN` while the buffer is allocated. -/
def State.fbRead (s : State) (a : Nat) : Option Byte :=
  match s.fb with
  | none => none
  | some m => if a < s.cfg.fblen then some (Memory.read m a) else none

/-- `FbWrite(a, n, bytes)` on the state (R44). -/
def fbWrite (a : Nat) (bs : List Byte) (s : State) : Result :=
  match s.fb with
  | none => .fault .bufferUnallocated
  | some m =>
    if a + bs.length ≤ s.cfg.fblen then .next { s with fb := some (Memory.writeBytes m a bs) }
    else .fault .bufferRange

/-! ## Output events -/

/-- What an event does to the line registers (`10_state.md` R22). -/
def State.drive (s : State) : Event → State
  | .dc l => { s with dc := .driven l }
  | .cs a => { s with cs := a }
  | .rst l => { s with rst := .driven l }
  | .bl l => { s with bl := .driven l }
  | .tx _ => s
  | .wait _ => s

/-- `emit e`: the event goes to the TRACE and its line takes the level, also when it already has it (`00_scope.md`
R7). -/
def State.emit (s : State) (e : Event) : State := { s.drive e with trace := s.trace ++ [e] }

/-- `emit [e1, e2, ...]`, in order. -/
def State.emitAll (s : State) (es : List Event) : State := es.foldl State.emit s

/-! ## Framed transactions (`40_transport_framing.md`) -/

/-- The events of `CMDW(b)` (R81). -/
def cmdFrame (b : Byte) : List Event := [.dc .low, .cs .asserted, .tx b, .dc .high, .cs .released]

/-- The events of `DATW(b)` (R82). -/
def dataFrame (b : Byte) : List Event := [.dc .high, .cs .asserted, .tx b, .cs .released]

/-- The events of `BLKW(bs)` (R83). -/
def blockFrame (bs : List Byte) : List Event :=
  [.dc .high, .cs .asserted] ++ bs.map Event.tx ++ [.cs .released]

/-- One framed transaction: the two lines must be there and no transaction open (R80; log 10). -/
def sendFrame (es : List Event) (s : State) : Result :=
  if s.dcPresent = false ∨ s.csPresent = false then .refused .linesAbsent
  else if s.cs = .asserted then .fault .transactionOpen
  else .next (s.emitAll es)

/-- One data frame per byte, in order (`41_command_table.md` R92). -/
def sendData : List Byte → State → Result
  | [], s => .next s
  | b :: bs, s => andThen (sendFrame (dataFrame b) s) (sendData bs)

/-! ## Faults and reset of the block -/

/-- `raise F(info)` (`60_exceptions.md` R186): `FAULT` takes the fault, all other state keeps its value; the first fault
is the one kept (R187). -/
def raise (f : Raised) (s : State) : Result :=
  match s.fault with
  | none => .next { s with fault := some f }
  | some _ => .next s

/-- There is no return from a fault (`60_exceptions.md` R187): only a reset of the block clears `FAULT`, and with it
all other state but the configuration (`70_reset_and_hazards.md` R200). What the host still wants to do is not state
of the block and stays. -/
def State.blockReset (s : State) : State := { State.resetWith s.cfg with agenda := s.agenda }

end Sys2Proof.Machine
end

