-- ==== Sys2Proof/Machine/Flags.lean ====
section
/-! DEFINITION. The conditions the meanings test. The block has no flags and no condition codes (`10_state.md` R16): an
operation depends on the sticky `FAULT` (R21), on `PHASE` (R17), on the pin-presence bits (R18) and on `ConfigWF`
(`00_scope.md` R8), and on nothing else of this kind. -/

namespace Sys2Proof.Machine

/-- Nothing runs once `FAULT` is set: neither a later statement of the request that raised it nor a later request
(`60_exceptions.md` R186 (a)). -/
def whenLive (s : State) (k : State → Result) : Result :=
  match s.fault with
  | none => k s
  | some _ => .next s

/-- A request that needs `PHASE` = `p` raises `F_PHASE` elsewhere (`60_exceptions.md` R181, R190). -/
def inPhase (p : Phase) (req : HostReq) (s : State) (k : State → Result) : Result :=
  if s.phase = p then k s else raise (.fPhase req s.phase) s

/-- The window ends exist and fit 16 bits (`00_scope.md` R8, rows WIDTH to ROW_OFFSET; D12). -/
def windowFits (c : Config) : Bool :=
  decide (1 ≤ c.width) && decide (1 ≤ c.height) && decide (c.colOffset + c.width - 1 ≤ 65535) &&
    decide (c.rowOffset + c.height - 1 ≤ 65535)

/-- `ROTATION` is none or an index 0..7 (R8). -/
def rotationOk (c : Config) : Bool :=
  match c.rotation with
  | none => true
  | some i => decide (i ≤ 7)

/-- `ConfigWF` (R8, `60_exceptions.md` R184). R8's other constraints hold of every `Config` by its form: the law of
`EXPAND332` (log 4) and the two FIXED rotation entries (log 5). -/
def configWF (c : Config) : Bool := windowFits c && rotationOk c

/-- Both lines a frame needs have been supplied (R18, R80). -/
def State.linesPresent (s : State) : Bool := s.dcPresent && s.csPresent

end Sys2Proof.Machine
end

