-- ==== Sys2Proof/Machine/Operands.lean ====
section
/-! DEFINITION. The operand values the meanings compute: delays, address payloads, the window, the orientation and
colour-mode bytes, pixel offsets. -/

namespace Sys2Proof.Machine

/-- `RST_HIGH_MS` (`00_scope.md` R8, FIXED). -/
def rstHighMs : Nat := 1

/-- `RST_LOW_MS` (R8, FIXED). -/
def rstLowMs : Nat := 10

/-- `DELAY_MS(DLY)` (`30_encoding.md` R63): the sentinel 255 stands for 500 ms. -/
def delayMs (dly : Byte) : Nat := if dly = 255 then 500 else dly.toNat

/-- `ADDR4(s, e)` (`30_encoding.md` R69). -/
def addr4 (s e : Half) : Addr4 := ⟨hi8 s, lo8 s, hi8 e, lo8 e⟩

/-- The four bytes in transmission order. -/
def Addr4.bytes (a : Addr4) : List Byte := [a.b0, a.b1, a.b2, a.b3]

/-- `XS` (`43_addressing_write.md` R131). -/
def winXs (c : Config) : Half := BitVec.ofNat 16 c.colOffset

/-- `XE` (R131): the end is inclusive. -/
def winXe (c : Config) : Half := BitVec.ofNat 16 (c.colOffset + c.width - 1)

/-- `YS` (R131). -/
def winYs (c : Config) : Half := BitVec.ofNat 16 c.rowOffset

/-- `YE` (R131). -/
def winYe (c : Config) : Half := BitVec.ofNat 16 (c.rowOffset + c.height - 1)

/-- `ROT_TABLE` (`10_state.md` R20): entries 0 and 6 FIXED, the others configured; no entry above 7. -/
def rotTable (c : Config) : Nat → Option Byte
  | 0 => some 0x60
  | 1 => some c.rot1
  | 2 => some c.rot2
  | 3 => some c.rot3
  | 4 => some c.rot4
  | 5 => some c.rot5
  | 6 => some 0x00
  | 7 => some c.rot7
  | _ => none

/-- The orientation byte (`44_controller.md` R157). -/
def madctlByte (c : Config) : Option Byte :=
  match c.rotation with
  | none => some c.madctlDefault
  | some i => rotTable c i

/-- The colour-mode byte (`30_encoding.md` R71, `44_controller.md` R156). -/
def colmodByte (c : Config) : Byte := if c.colorBits > 16 then c.colmodGt16 else c.colmodLe16

/-- `OFF(x, y)` (`42_pixel_codec.md` R118). -/
def pixelOff (c : Config) (x y : Nat) : Nat := (x + y * c.width) * c.bpp

end Sys2Proof.Machine
end

