-- ==== Sys2Proof/Machine/Framing.lean ====
section
/-! DEFINITION. The three framing primitives as operations (`40_transport_framing.md` R80 to R83). -/

namespace Sys2Proof.Machine

/-- `CMDW(b)` (R81). -/
def execCmdw (b : Byte) (s : State) : Result := whenLive s (sendFrame (cmdFrame b))

/-- `DATW(b)` (R82). -/
def execDatw (b : Byte) (s : State) : Result := whenLive s (sendFrame (dataFrame b))

/-- `BLKW(bs)` (R83). -/
def execBlkw (bs : List Byte) (s : State) : Result := whenLive s (sendFrame (blockFrame bs))

end Sys2Proof.Machine
end

