-- ==== Sys2Proof/Machine/Table.lean ====
section
/-! DEFINITION. The command table interpreter (`41_command_table.md`). -/

namespace Sys2Proof.Machine

/-- The header fields in the scratch (`10_state.md` R14), as `FETCH` writes them before its second check (R91). `DLY`
keeps its value (log 8). -/
def loadHeader (opc : Byte) (argn : BitVec 7) (dlyf : Bool) (s : State) : State :=
  { s with scratch := ⟨opc, argn, dlyf, s.scratch.dly⟩ }

/-- All of the record's fields in the scratch: a record without a delay byte leaves `DLY` as it is (R91; log 8). -/
def loadScratch (opc : Byte) (args : List Byte) (dly : Option Byte) (s : State) : State :=
  { s with scratch := ⟨opc, BitVec.ofNat 7 args.length, dly.isSome, dly.getD s.scratch.dly⟩ }

/-- The delay of a record, after all its bytes (R93). -/
def recordWait : Option Byte → List Event
  | none => []
  | some dly => [.wait (delayMs dly)]

/-- A record at `TP` that must lie wholly inside the table (the two checks of R91; log 12): the opcode as a command
frame, one data frame per argument, the delay, then `TP` moves past it (R92, R93). -/
def runRecord (opc : Byte) (args : List Byte) (dly : Option Byte) (s : State) : Result :=
  if s.tp + 2 > s.cfg.tlen then raise (.fTable s.tp) s
  else if s.tp + (2 + args.length + dly.isSome.toNat) > s.cfg.tlen then
    raise (.fTable s.tp) (loadHeader opc (BitVec.ofNat 7 args.length) dly.isSome s)
  else
    andThen (sendFrame (cmdFrame opc) (loadScratch opc args dly s)) fun s1 =>
    andThen (sendData args s1) fun s2 =>
    .next { s2.emitAll (recordWait dly) with tp := s.tp + (2 + args.length + dly.isSome.toNat) }

/-- `REC` (R92). -/
def execTblRec (opc : Byte) (args : List Byte) (s : State) : Result := whenLive s (runRecord opc args none)

/-- `REC.D` (R93). -/
def execTblRecD (opc : Byte) (args : List Byte) (dly : Byte) (s : State) : Result :=
  whenLive s (runRecord opc args (some dly))

/-- `F_TABLE(TP)` for a record of which the table holds only the bytes `bs` (R91, R96). -/
def raiseCutOff (bs : List Byte) (s : State) : Result :=
  match bs with
  | opc :: hdr :: _ => raise (.fTable s.tp) (loadHeader opc (hdrArgn hdr) (hdrDlyf hdr) s)
  | _ => raise (.fTable s.tp) s

/-- The record at `TP`: fetched from the table when it is executed (`20_memory.md` R52), or `F_TABLE(TP)` (R91, R96). -/
def recordAtTp (s : State) : Result :=
  match decodeRecord (s.cfg.initTable.drop s.tp) with
  | .ok (.tblRec opc args, _) => execTblRec opc args s
  | .ok (.tblRecD opc args dly, _) => execTblRecD opc args dly s
  | _ => raiseCutOff (s.cfg.initTable.drop s.tp) s

/-- One turn of the loop of R94: nothing once `TP` = `TLEN` or a fault is set. -/
def tableTurn (s : State) : Result :=
  whenLive s fun s => if s.tp < s.cfg.tlen then recordAtTp s else .next s

/-- The loop of R94. Every turn that runs a record moves `TP` on by at least 2 (R64), so `TLEN` turns are enough. -/
def tableLoop : Nat → State → Result
  | 0, s => .next s
  | n + 1, s => andThen (tableTurn s) (tableLoop n)

/-- `RUNTABLE` (R94). -/
def execRuntable (s : State) : Result := whenLive s fun s => tableLoop s.cfg.tlen { s with tp := 0 }

end Sys2Proof.Machine
end

