-- ==== Sys2Proof/Machine/Codec.lean ====
section
/-! DEFINITION. The pixel codec (`42_pixel_codec.md` R110 to R117): total, pure functions. Run as an operation of its
own, each leaves its result in `codec` and changes nothing else, whatever the state (log 15). -/

namespace Sys2Proof.Machine

/-- `ENC332` (R111): the top bits of each channel, truncated. -/
def enc332 (c : Rgb) : Byte := c.r.extractLsb 7 5 ++ c.g.extractLsb 7 5 ++ c.b.extractLsb 7 6

/-- `ENC565` (R112). -/
def enc565 (c : Rgb) : Half := c.r.extractLsb 7 3 ++ c.g.extractLsb 7 2 ++ c.b.extractLsb 7 3

/-- `DEC565` (R113): the red channel. -/
def dec565r (p : Half) : BitVec 5 := p.extractLsb 15 11

/-- `DEC565` (R113): the green channel. -/
def dec565g (p : Half) : BitVec 6 := p.extractLsb 10 5

/-- `DEC565` (R113): the blue channel. -/
def dec565b (p : Half) : BitVec 5 := p.extractLsb 4 0

/-- The low bits `EXPAND332` adds to byte `v`: the configured row, else zeros (R114; log 4). -/
def fillOf (c : Config) (v : Byte) : Fill := c.expandFill.getD v.toNat ⟨0, 0, 0⟩

/-- `EXPAND332` (R114): the stored bits on top, the configured fill below. -/
def expand332 (c : Config) (v : Byte) : Rgb where
  r := v.extractLsb 7 5 ++ (fillOf c v).r
  g := v.extractLsb 4 2 ++ (fillOf c v).g
  b := v.extractLsb 1 0 ++ (fillOf c v).b

/-- `REQ565` (R115). -/
def req565 (c : Config) (v : Byte) : Half := enc565 (expand332 c v)

/-- A codec function's result as the outcome of an operation. -/
def answer (out : CodecOut) (s : State) : Result := .next { s with codec := out }

/-- `ENC332` (R111). -/
def execEnc332 (color : Rgb) (s : State) : Result := answer (.byte (enc332 color)) s

/-- `ENC565` (R112). -/
def execEnc565 (color : Rgb) (s : State) : Result := answer (.half (enc565 color)) s

/-- `DEC565` (R113). -/
def execDec565 (p : Half) (s : State) : Result := answer (.channels (dec565r p) (dec565g p) (dec565b p)) s

/-- `EXPAND332` (R114). -/
def execExpand332 (v : Byte) (s : State) : Result := answer (.color (expand332 s.cfg v)) s

/-- `REQ565` (R115). -/
def execReq565 (v : Byte) (s : State) : Result := answer (.half (req565 s.cfg v)) s

end Sys2Proof.Machine
end

