-- ==== Sys2Proof/Machine/Window.lean ====
section
/-! DEFINITION. The addressing window and the frame write (`43_addressing_write.md`). -/

namespace Sys2Proof.Machine

/-- `WINDOW` (R131). No truncation or wrap is ever applied: a window that does not fit is refused (log 14). -/
def execWindow (s : State) : Result :=
  whenLive s fun s =>
  if windowFits s.cfg then
    .next { s with xs := winXs s.cfg, xe := winXe s.cfg, ys := winYs s.cfg, ye := winYe s.cfg }
  else .refused .rConfig

/-- An address command: the opcode as a command frame, the four bytes as one block frame (R132, R133), through the
address scratch (`10_state.md` R15). -/
def sendAddress (op : Byte) (a : Addr4) (s : State) : Result :=
  andThen (sendFrame (cmdFrame op) { s with addr := a }) (sendFrame (blockFrame a.bytes))

/-- `CASET` step (R132). -/
def execCaset (s : State) : Result := whenLive s fun s => sendAddress s.cfg.opCaset (addr4 s.xs s.xe) s

/-- `RASET` step (R133). -/
def execRaset (s : State) : Result := whenLive s fun s => sendAddress s.cfg.opRaset (addr4 s.ys s.ye) s

/-- `RAMWR` step (R134). -/
def execRamwr (s : State) : Result := whenLive s fun s => sendFrame (cmdFrame s.cfg.opRamwr) s

/-- The wire bytes of one stored byte: itself in standard format, re-quantized in reduced format (R135). -/
def wireBytes (c : Config) (v : Byte) : List Byte :=
  match c.format with
  | .standard => [v]
  | .reduced => [hi8 (req565 c v), lo8 (req565 c v)]

/-- `PAYLOAD` (R135): every stored byte, in index order. -/
def payload (c : Config) (m : Memory) : List Byte :=
  (List.range c.fblen).flatMap fun a => wireBytes c (Memory.read m a)

/-- `STREAM` step (R137): one block frame; `SP` starts at 0 and ends at `FBLEN`. -/
def execStream (s : State) : Result :=
  whenLive s fun s =>
  match s.fb with
  | none => .fault .bufferUnallocated
  | some m =>
    andThen (sendFrame (blockFrame (payload s.cfg m)) { s with sp := 0 }) fun t =>
    .next { t with sp := s.cfg.fblen }

/-- `UPDATE` (R138). -/
def execUpdate (s : State) : Result :=
  whenLive s fun s =>
  inPhase .ready .update s fun s =>
  andThen (execWindow s) fun s =>
  andThen (execCaset s) fun s =>
  andThen (execRaset s) fun s =>
  andThen (execRamwr s) execStream

end Sys2Proof.Machine
end

