-- ==== Sys2Proof/Machine/Controller.lean ====
section
/-! DEFINITION. Controller sequencing: pin requests, the steps of initialization, and `INITIALIZE`
(`44_controller.md`). -/

namespace Sys2Proof.Machine

/-- The shape of a pin request (R150): accepted only before `INITIALIZE`. -/
def supplyLine (req : HostReq) (supply : State → State) (s : State) : Result :=
  whenLive s fun s => inPhase .uninitialized req s fun s => .next (supply s)

/-- `SETRSTPIN` (R150). -/
def execSetrstpin (s : State) : Result := supplyLine .setrstpin (fun s => { s with rstPresent := true }) s

/-- `SETDCPIN` (R150). -/
def execSetdcpin (s : State) : Result := supplyLine .setdcpin (fun s => { s with dcPresent := true }) s

/-- `SETBLPIN` (R150). -/
def execSetblpin (s : State) : Result := supplyLine .setblpin (fun s => { s with blPresent := true }) s

/-- `SETCSPIN` (R150). -/
def execSetcspin (s : State) : Result := supplyLine .setcspin (fun s => { s with csPresent := true }) s

/-- The events of the reset pulse (R153). -/
def resetPulse : List Event := [.rst .high, .wait rstHighMs, .rst .low, .wait rstLowMs, .rst .high]

/-- `RESETPULSE` (R153). -/
def execResetpulse (s : State) : Result :=
  whenLive s fun s =>
  .next { s.emitAll (if s.rstPresent then resetPulse else []) with phase := .resetting }

/-- `SETTLE` (R154). -/
def execSettle (s : State) : Result :=
  whenLive s fun s => .next { s.emit (.wait s.cfg.settleMs) with phase := .runningInitTable }

/-- A command with one argument byte in a data frame (R156, R157). -/
def sendCmdArg (op arg : Byte) (s : State) : Result :=
  andThen (sendFrame (cmdFrame op) s) (sendFrame (dataFrame arg))

/-- `COLMOD` step (R156). -/
def execColmod (s : State) : Result := whenLive s fun s => sendCmdArg s.cfg.opColmod (colmodByte s.cfg) s

/-- `MADCTL` step (R157). An index above 7 is no legal configuration and has no byte (log 14). -/
def execMadctl (s : State) : Result :=
  whenLive s fun s =>
  match madctlByte s.cfg with
  | some b => sendCmdArg s.cfg.opMadctl b s
  | none => .refused .rConfig

/-- `INVON` step (R158). -/
def execInvon (s : State) : Result :=
  whenLive s fun s =>
  andThen (if s.cfg.invert then sendFrame (cmdFrame s.cfg.opInvon) s else .next s) fun s =>
  .next { s with phase := .configured }

/-- `ALLOCATE` and `BACKLIGHT` (R159): the zero-filled buffer is the empty memory. -/
def execAllocateBacklight (s : State) : Result :=
  whenLive s fun s =>
  .next { s.emitAll (if s.blPresent then [.bl .high] else []) with fb := some [], phase := .ready }

/-- The steps of `INITIALIZE` after its checks (R151). Bus and pin setup emits nothing (R152). A step does nothing once
the table has raised `F_TABLE` (R155). -/
def initSequence (s : State) : Result :=
  andThen (execResetpulse s) fun s =>
  andThen (execSettle s) fun s =>
  andThen (execRuntable s) fun s =>
  andThen (execColmod s) fun s =>
  andThen (execMadctl s) fun s =>
  andThen (execInvon s) execAllocateBacklight

/-- `INITIALIZE` (R151): `F_PHASE`, then `R_CONFIG`, then the steps (`60_exceptions.md` R185). -/
def execInitialise (s : State) : Result :=
  whenLive s fun s =>
  inPhase .uninitialized .initialise s fun s =>
  if configWF s.cfg && s.linesPresent then initSequence s else .refused .rConfig

end Sys2Proof.Machine
end

