-- ==== Sys2Proof/Machine/Pixel.lean ====
section
/-! DEFINITION. The host requests on the buffer and its geometry (`42_pixel_codec.md` R118 to R120). -/

namespace Sys2Proof.Machine

/-- The bytes of one pixel in the buffer's format, high byte first (`20_memory.md` R42). -/
def pixelBytes (c : Config) (color : Rgb) : List Byte :=
  match c.format with
  | .reduced => [enc332 color]
  | .standard => [hi8 (enc565 color), lo8 (enc565 color)]

/-- The coordinates lie on the panel (R119). -/
def onPanel (c : Config) (x y : Int) : Bool :=
  decide (0 ≤ x) && decide (x < c.width) && decide (0 ≤ y) && decide (y < c.height)

/-- `SETPIXEL` (R119): `F_PHASE`, then `F_PIXEL`, then the write. -/
def execSetpixel (x y : Int) (color : Rgb) (s : State) : Result :=
  whenLive s fun s =>
  inPhase .ready .setpixel s fun s =>
  if onPanel s.cfg x y then fbWrite (pixelOff s.cfg x.toNat y.toNat) (pixelBytes s.cfg color) s
  else raise (.fPixel x y) s

/-- `GETBUFLEN` (R120): `FBLEN` in every phase, also with `FAULT` set. -/
def execGetbuflen (s : State) : Result := .next { s with returns := s.returns ++ [s.cfg.fblen] }

end Sys2Proof.Machine
end

