-- ==== Sys2Proof/Machine/Dispatch.lean ====
section
/-! DEFINITION. One arm per instruction, each the call of its meaning. -/

namespace Sys2Proof.Machine

def exec (i : Instr) (s : State) : Host.Outcome State Fault Refusal :=
  match i with
  -- table records (41_command_table.md)
  | .tblRec opc args => Sys2Proof.Machine.execTblRec opc args s
  | .tblRecD opc args dly => Sys2Proof.Machine.execTblRecD opc args dly s
  -- framing primitives (40_transport_framing.md)
  | .cmdw b => Sys2Proof.Machine.execCmdw b s
  | .datw b => Sys2Proof.Machine.execDatw b s
  | .blkw bs => Sys2Proof.Machine.execBlkw bs s
  -- host requests (44_controller.md, 43_addressing_write.md, 42_pixel_codec.md)
  | .setrstpin => Sys2Proof.Machine.execSetrstpin s
  | .setdcpin => Sys2Proof.Machine.execSetdcpin s
  | .setblpin => Sys2Proof.Machine.execSetblpin s
  | .setcspin => Sys2Proof.Machine.execSetcspin s
  | .initialise => Sys2Proof.Machine.execInitialise s
  | .update => Sys2Proof.Machine.execUpdate s
  | .setpixel x y color => Sys2Proof.Machine.execSetpixel x y color s
  | .getbuflen => Sys2Proof.Machine.execGetbuflen s
  -- wire command steps (43_addressing_write.md, 44_controller.md)
  | .caset => Sys2Proof.Machine.execCaset s
  | .raset => Sys2Proof.Machine.execRaset s
  | .ramwr => Sys2Proof.Machine.execRamwr s
  | .colmod => Sys2Proof.Machine.execColmod s
  | .madctl => Sys2Proof.Machine.execMadctl s
  | .invon => Sys2Proof.Machine.execInvon s
  -- internal steps
  | .runtable => Sys2Proof.Machine.execRuntable s
  | .resetpulse => Sys2Proof.Machine.execResetpulse s
  | .settle => Sys2Proof.Machine.execSettle s
  | .allocateBacklight => Sys2Proof.Machine.execAllocateBacklight s
  | .window => Sys2Proof.Machine.execWindow s
  | .stream => Sys2Proof.Machine.execStream s
  -- pure functions (42_pixel_codec.md)
  | .enc332 color => Sys2Proof.Machine.execEnc332 color s
  | .enc565 color => Sys2Proof.Machine.execEnc565 color s
  | .dec565 p => Sys2Proof.Machine.execDec565 p s
  | .expand332 v => Sys2Proof.Machine.execExpand332 v s
  | .req565 v => Sys2Proof.Machine.execReq565 v s

end Sys2Proof.Machine
end

