-- ==== Sys2Proof/Machine/Fetch.lean ====
section
/-! DEFINITION. Taking one item of the agenda (log 1), and laying an instruction's bits where the next step takes
them. -/

namespace Sys2Proof.Machine

/-- One item: an issued operation is decoded and run; a reserved request code is `R_REQ` before anything else
(`60_exceptions.md` R185); an overlapped request is `R_BUSY` (R184). R184 refuses an overlapped request with a reserved
code under both names and R185 does not order the two: that it is `R_BUSY` here, its code unread, is the model's
(DESIGN CHOICE, log 19). -/
def runItem : Item → State → Result
  | .issue c, s =>
    match decode c with
    | .ok i => exec i s
    | .error (.reservedRequest req) => .refused (.rReq req)
    | .error e => .refused (.badCode e)
  | .overlap _, _ => .refused .rBusy
  | .tableStep, s => tableTurn s
  | .blockReset, s => .next s.blockReset

/-- Takes the first item; with nothing asked the block is idle with all state kept (`60_exceptions.md` R194). -/
def takeItem (s : State) : Result :=
  match s.agenda with
  | [] => .next s
  | it :: rest => runItem it { s with agenda := rest }

/-- The table with the record `bs` at index `p` and nothing after it. -/
def placeRecord (t : List Byte) (p : Nat) (bs : List Byte) : List Byte :=
  (t ++ List.replicate p 0).take p ++ bs

/-- `s` with the bits of `c` where the next step takes its instruction: a record in the table at `TP`, anything else at
the front of the agenda (log 2). -/
def placeCode (s : State) : Code → State
  | .record bs =>
    { s with cfg := { s.cfg with initTable := placeRecord s.cfg.initTable s.tp bs }, agenda := .tableStep :: s.agenda }
  | c => { s with agenda := .issue c :: s.agenda }

end Sys2Proof.Machine
end

