-- ==== Sys2Proof/Machine/Step.lean ====
section
/-! DEFINITION. One step of the machine, and the placing of an instruction for the next step. -/

namespace Sys2Proof.Machine

/-- One step: the next item of the agenda (D31: a request is one atomic transition; log 1). -/
def step (s : State) : Host.Outcome State Fault Refusal := takeItem s

/-- `s` with the instruction whose bits are `w` (numbered as `opcode_table.json` numbers them) where `step` takes its
next instruction (log 2). -/
def State.withFetchWord (s : State) (nbits w : Nat) : State := placeCode s (tableWordCode nbits w)

end Sys2Proof.Machine
end

