-- ==== Sys2Proof/Safety.lean ====
section
/-! DEFINITION. What a safe run is, in the terms the claims use: when the block can send, what a well-framed trace is,
the invariant of every step, and what holds between the host's requests. -/

namespace Sys2Proof.Machine

/-- A frame can be sent: no fault, both lines supplied, no transaction open (`40_transport_framing.md` R80). -/
structure State.CanSend (s : State) : Prop where
  live : s.fault = none
  dcLine : s.dcPresent = true
  csLine : s.csPresent = true
  released : s.cs = .released

/-! ## The trace grammar (`40_transport_framing.md` R85) -/

/-- `item` of the grammar. -/
inductive TraceItem : List Event → Prop where
  | cmd (b : Byte) : TraceItem [.dc .low, .cs .asserted, .tx b, .dc .high, .cs .released]
  | blk (bs : List Byte) : TraceItem ([.dc .high, .cs .asserted] ++ bs.map Event.tx ++ [.cs .released])
  | rst (l : Level) : TraceItem [.rst l]
  | bl (l : Level) : TraceItem [.bl l]
  | wait (n : Nat) : TraceItem [.wait n]

/-- `trace` of the grammar: a concatenation of items. -/
inductive Framed : List Event → Prop where
  | nil : Framed []
  | snoc {es item : List Event} : Framed es → TraceItem item → Framed (es ++ item)

/-! ## Records as the table holds them (`30_encoding.md` R61) -/

/-- One record of the stored program. -/
structure TableRecord where
  opc : Byte
  args : List Byte
  dly : Option Byte
  deriving DecidableEq, Repr

/-- The count fits its 7 bits. -/
def TableRecord.wf (r : TableRecord) : Prop := r.args.length ≤ 127

/-- Its bytes in the table. -/
def TableRecord.bytes (r : TableRecord) : List Byte := recordBytes r.opc r.args r.dly

/-- Its events on the wire (`41_command_table.md` R92, R93): the opcode as a command frame, each argument as a data
frame, then the delay, 255 standing for 500 ms. -/
def TableRecord.events (r : TableRecord) : List Event :=
  cmdFrame r.opc ++ r.args.flatMap dataFrame ++
    match r.dly with
    | none => []
    | some d => [.wait (if d = 255 then 500 else d.toNat)]

/-- `5 + 4 * ARGN + DLYF`, the number of its events (R94). -/
def TableRecord.eventCount (r : TableRecord) : Nat := 5 + 4 * r.args.length + (if r.dly.isSome then 1 else 0)

/-- The bytes of a list of records, one after the other with nothing between them (`30_encoding.md` R65). -/
def tableBytes (rs : List TableRecord) : List Byte := rs.flatMap TableRecord.bytes

/-- The events of a list of records. -/
def tableEvents (rs : List TableRecord) : List Event := rs.flatMap TableRecord.events

/-! ## Requests in small steps (`92_eei_decisions.md` D31) -/

/-- The inner steps of `INITIALIZE` as items of the agenda, in the order of `44_controller.md` R151. -/
def initItems : List Item :=
  [.issue (encode .resetpulse), .issue (encode .settle), .issue (encode .runtable), .issue (encode .colmod),
   .issue (encode .madctl), .issue (encode .invon), .issue (encode .allocateBacklight)]

/-- The inner steps of `UPDATE`, in the order of `43_addressing_write.md` R138. -/
def updateItems : List Item :=
  [.issue (encode .window), .issue (encode .caset), .issue (encode .raset), .issue (encode .ramwr),
   .issue (encode .stream)]

/-- `n` steps one after the other, up to the first stop. -/
def steps : Nat → State → Result
  | 0, s => .next s
  | n + 1, s => andThen (step s) (steps n)

/-! ## How a run ends -/

/-- A final (successful) state of a run (`60_exceptions.md` R186): no fault is set. That the host asks nothing more is
the model's reading of "the end" (log 28). -/
def State.Final (s : State) : Prop := s.agenda = [] ∧ s.fault = none

/-- The run ended in a final state. A run that was refused never does (R184), nor one that stopped. -/
def EndsWell (r : Result) : Prop := ∃ t, r = .next t ∧ t.Final

/-! ## Which registers the rules let an operation write -/

/-- The registers of `10_state.md` and the records of what came out, but for `CS` and the configuration, which have the
same value after every operation. -/
inductive Reg where
  | rstPresent
  | dcPresent
  | blPresent
  | csPresent
  | phase
  | fault
  | tp
  | sp
  | window
  | recordScratch
  | addressScratch
  | dcLine
  | rstLine
  | blLine
  | buffer
  | trace
  | returns
  | codec
  deriving DecidableEq, Repr

/-- The "State written" of each rule, the scratch it uses, the faults it can raise and what it puts out. -/
def writes : Instr → List Reg
  | .tblRec _ _ => [.tp, .recordScratch, .fault, .dcLine, .trace]
  | .tblRecD _ _ _ => [.tp, .recordScratch, .fault, .dcLine, .trace]
  | .cmdw _ => [.dcLine, .trace]
  | .datw _ => [.dcLine, .trace]
  | .blkw _ => [.dcLine, .trace]
  | .setrstpin => [.rstPresent, .fault]
  | .setdcpin => [.dcPresent, .fault]
  | .setblpin => [.blPresent, .fault]
  | .setcspin => [.csPresent, .fault]
  | .initialise =>
    [.phase, .tp, .recordScratch, .fault, .dcLine, .rstLine, .blLine, .buffer, .trace]
  | .update => [.window, .addressScratch, .sp, .fault, .dcLine, .trace]
  | .setpixel _ _ _ => [.buffer, .fault]
  | .getbuflen => [.returns]
  | .caset => [.addressScratch, .dcLine, .trace]
  | .raset => [.addressScratch, .dcLine, .trace]
  | .ramwr => [.dcLine, .trace]
  | .colmod => [.dcLine, .trace]
  | .madctl => [.dcLine, .trace]
  | .invon => [.phase, .dcLine, .trace]
  | .runtable => [.tp, .recordScratch, .fault, .dcLine, .trace]
  | .resetpulse => [.phase, .rstLine, .trace]
  | .settle => [.phase, .trace]
  | .allocateBacklight => [.phase, .buffer, .blLine, .trace]
  | .window => [.window]
  | .stream => [.sp, .dcLine, .trace]
  | .enc332 _ => [.codec]
  | .enc565 _ => [.codec]
  | .dec565 _ => [.codec]
  | .expand332 _ => [.codec]
  | .req565 _ => [.codec]

/-- The operation, run from `s` without a fault, gets as far as its first frame. `INITIALIZE` is not among them: it
checks the lines itself (`60_exceptions.md` R184). -/
def ReachesAFrame (s : State) : Instr → Prop
  | .tblRec _ args => s.tp + (2 + args.length) ≤ s.cfg.tlen
  | .tblRecD _ args _ => s.tp + (3 + args.length) ≤ s.cfg.tlen
  | .cmdw _ => True
  | .datw _ => True
  | .blkw _ => True
  | .setrstpin => False
  | .setdcpin => False
  | .setblpin => False
  | .setcspin => False
  | .initialise => False
  | .update => s.phase = .ready ∧ windowFits s.cfg = true
  | .setpixel _ _ _ => False
  | .getbuflen => False
  | .caset => True
  | .raset => True
  | .ramwr => True
  | .colmod => True
  | .madctl => ∃ b, madctlByte s.cfg = some b
  | .invon => s.cfg.invert = true
  | .runtable => ∃ (r : TableRecord) (rest : List Byte), r.wf ∧ s.cfg.initTable = r.bytes ++ rest
  | .resetpulse => False
  | .settle => False
  | .allocateBacklight => False
  | .window => False
  | .stream => ∃ m, s.fb = some m
  | .enc332 _ => False
  | .enc565 _ => False
  | .dec565 _ => False
  | .expand332 _ => False
  | .req565 _ => False

/-! ## The line registers hold the last level written (`10_state.md` R22) -/

/-- What an event does to the `DC` line. -/
def dcStep (l : Line) : Event → Line
  | .dc v => .driven v
  | _ => l

/-- What an event does to the `CS` line. -/
def csStep (l : ChipSelect) : Event → ChipSelect
  | .cs v => v
  | _ => l

/-- What an event does to the `RST` line. -/
def rstStep (l : Line) : Event → Line
  | .rst v => .driven v
  | _ => l

/-- What an event does to the `BL` line. -/
def blStep (l : Line) : Event → Line
  | .bl v => .driven v
  | _ => l

/-- The `DC` line after the events, from its reset value on. -/
def dcAfter (es : List Event) : Line := es.foldl dcStep .undriven

/-- The `CS` line after the events, from its reset value on. -/
def csAfter (es : List Event) : ChipSelect := es.foldl csStep .released

/-- The `RST` line after the events, from its reset value on. -/
def rstAfter (es : List Event) : Line := es.foldl rstStep .undriven

/-- The `BL` line after the events, from its reset value on. -/
def blAfter (es : List Event) : Line := es.foldl blStep .undriven

/-! ## Invariants -/

/-- What every step keeps, whatever the agenda holds: the frame buffer in canonical form and inside `0 .. FBLEN - 1`
(`20_memory.md` R43, R44), the pointers in range (`10_state.md` R11, R12), a trace of whole frames (R85), and the line
registers at the last level written (R22). -/
structure State.Inv (s : State) : Prop where
  buffer : ∀ m, s.fb = some m → Memory.wf m = true ∧ ∀ c ∈ m, c.1 < s.cfg.fblen
  tp : s.tp ≤ s.cfg.tlen
  sp : s.sp ≤ s.cfg.fblen
  framed : Framed s.trace
  dcLine : s.dc = dcAfter s.trace
  csLine : s.cs = csAfter s.trace
  rstLine : s.rst = rstAfter s.trace
  blLine : s.bl = blAfter s.trace

/-- What the host can put on the agenda: requests, overlapped requests, a reset of the block. -/
def Item.fromHost : Item → Bool
  | .issue (.request _ _ _) => true
  | .overlap _ => true
  | .blockReset => true
  | _ => false

/-- A line that is undriven or high. -/
def Line.quiet (l : Line) : Prop := l = .undriven ∨ l = .driven .high

/-- What holds between the host's requests: the line invariants of `10_state.md` R23, a phase the host can find
(R17, `60_exceptions.md` R190), and a buffer exactly in `Ready`, under a legal configuration with both lines (R25, R184). -/
structure State.BetweenRequests (s : State) : Prop where
  host : ∀ it ∈ s.agenda, it.fromHost = true
  released : s.cs = .released
  dcQuiet : s.dc.quiet
  rstQuiet : s.rst.quiet
  blQuiet : s.bl.quiet
  phase : s.phase = .uninitialized ∨ s.phase = .ready ∨ (s.phase = .runningInitTable ∧ ∃ tp, s.fault = some (.fTable tp))
  buffer : s.fb.isSome = true ↔ s.phase = .ready
  legal : s.phase = .ready → configWF s.cfg = true ∧ s.dcPresent = true ∧ s.csPresent = true

end Sys2Proof.Machine
end

