-- ==== Sys2Proof/Certificates/Slice0/Obligations.lean ====
section
/-! DEFINITION. The statements for the provers. `CanSend` is the contract of `40_transport_framing.md` R80: no fault,
both lines supplied, no transaction open. An equation with a next state `{ s with … }` states the frame too: every
field it does not name is unchanged, every byte of the frame buffer among them. -/

open Sys2Proof Sys2Proof.Machine

/-! ## Encoding -/

/-- Words written out from the encodings of R61, R67, R68 and `opcode_table.json` decode to their rows. The numbers of
the internal steps and pure functions are the model's (log 17). -/
def Obligations.WordsDecodeAsTheirRows : Prop :=
  decode (.request 0x4 [] []) = .ok .initialise ∧
  decode (.request 0x6 [-1, 479] [0xFF, 0x00, 0x80]) = .ok (.setpixel (-1) 479 ⟨0xFF, 0x00, 0x80⟩) ∧
  decode (.record [0x3A, 0x01, 0x55]) = .ok (.tblRec 0x3A [0x55]) ∧
  decode (.record [0x36, 0x81, 0x48, 0x0A]) = .ok (.tblRecD 0x36 [0x48] 0x0A) ∧
  decode (.frame .command [0b000101100#9]) = .ok (.cmdw 0x2C) ∧
  decode (.frame .data [0b101010101#9]) = .ok (.datw 0x55) ∧
  decode (.frame .block [0b100000001#9, 0b100111111#9]) = .ok (.blkw [0x01, 0x3F]) ∧
  decode (.command 0b000101010#9) = .ok .caset ∧
  decode (.command 0b000110110#9) = .ok .madctl ∧
  decode (.internal 0) = .ok .runtable ∧
  decode (.function 2 [0x11, 0xAA]) = .ok (.dec565 0x11AA)

/-- Decoding the encoding of a well-formed instruction gives it back, every operand at every value. -/
def Obligations.DecodeOfEncodeIsTheInstruction : Prop :=
  ∀ i : Instr, i.wf = true → decode (encode i) = .ok i

/-- The other direction for the stored program: a decoded record is well-formed and its encoding is exactly the bytes
read, `RECLEN = 2 + ARGN + DLYF` of them (R64, `90_conflicts.md` C1). -/
def Obligations.DecodedRecordIsExactlyTheBytesRead : Prop :=
  ∀ (bs rest : List Byte) (i : Instr), decodeRecord bs = .ok (i, rest) →
    i.wf = true ∧
    ∃ opc hdr tail pre, bs = opc :: hdr :: tail ∧ encode i = .record pre ∧ bs = pre ++ rest ∧
      pre.length = 2 + hdr.toNat % 128 + hdr.toNat / 128

/-- `ARGN = HDR[6:0]`, `DLYF = HDR[7]`; 0x81 means one argument and a delay, not 129 arguments (R62). -/
def Obligations.HeaderHoldsCountAndDelayFlag : Prop :=
  (∀ hdr : Byte, (hdrArgn hdr).toNat = hdr.toNat % 128 ∧ (hdrDlyf hdr = true ↔ 128 ≤ hdr.toNat)) ∧
  ∀ opc a d : Byte, decode (.record [opc, 0x81, a, d]) = .ok (.tblRecD opc [a] d)

/-- `FETCH(p)` by table index (R91): it fails exactly when one of its two checks fires, and else reads `OPC` at p, `HDR`
at p + 1, `ARG[i]` at p + 2 + i and, when `DLYF` = 1, `DLY` at p + 2 + `ARGN`. The checks are the spec's decision D8. -/
def Obligations.FetchReadsTheRecordByIndex : Prop :=
  ∀ (t : List Byte) (p : Nat), p < t.length →
    ((∃ e, decodeRecord (t.drop p) = .error e) ↔
      (p + 2 > t.length ∨
        ∃ hdr, t[p + 1]? = some hdr ∧ p + 2 + hdr.toNat % 128 + hdr.toNat / 128 > t.length)) ∧
    ∀ i rest, decodeRecord (t.drop p) = .ok (i, rest) →
      ∃ opc hdr args, t[p]? = some opc ∧ t[p + 1]? = some hdr ∧ args.length = hdr.toNat % 128 ∧
        (∀ k < args.length, args[k]? = t[p + 2 + k]?) ∧
        (hdr.toNat < 128 → i = .tblRec opc args) ∧
        (128 ≤ hdr.toNat → ∃ dly, t[p + 2 + args.length]? = some dly ∧ i = .tblRecD opc args dly)

/-- `TableWF` (R65) holds exactly of the concatenations of records. -/
def Obligations.TableIsWellFormedIffRecordsInARow : Prop :=
  ∀ t : List Byte, tableWF t = true ↔ ∃ rs : List TableRecord, (∀ r ∈ rs, r.wf) ∧ t = tableBytes rs

/-! ## The step -/

/-- When the item in front is an operation whose bits decode, a step is `exec` of it with the item taken off. -/
def Obligations.StepRunsTheDecodedInstruction : Prop :=
  ∀ (s : State) (c : Code) (i : Instr) (rest : List Item), s.agenda = .issue c :: rest → decode c = .ok i →
    step s = exec i { s with agenda := rest }

/-- A turn of the interpreter's loop runs the record at `TP` as the table holds it (R94, R52); at the end of the table
it does nothing; where the record does not fit it raises `F_TABLE(TP)` with no event (R96, D8). -/
def Obligations.TableTurnRunsTheRecordAtTp : Prop :=
  ∀ (s : State) (rest : List Item), s.agenda = .tableStep :: rest →
    (∀ i tail, decodeRecord (s.cfg.initTable.drop s.tp) = .ok (i, tail) → step s = exec i { s with agenda := rest }) ∧
    (s.cfg.tlen ≤ s.tp → step s = .next { s with agenda := rest }) ∧
    (∀ e, s.fault = none → s.tp < s.cfg.tlen → decodeRecord (s.cfg.initTable.drop s.tp) = .error e →
      ∃ t, step s = .next t ∧
        t = { s with agenda := rest, fault := some (.fTable s.tp), scratch := t.scratch })

/-- The instruction the decoder reads from a table word is the one the next step runs, in the same state but for the
table where the word is a record (log 2; how a record is placed is the model's). -/
def Obligations.PlacedWordIsWhatTheNextStepRuns : Prop :=
  ∀ (s : State) (nbits w : Nat) (i : Instr), decodeTableWord nbits w = some i →
    ∃ t, step (s.withFetchWord nbits w) = exec i { s with cfg := { s.cfg with initTable := t } } ∧
      ((∀ opc args, i ≠ .tblRec opc args) → (∀ opc args dly, i ≠ .tblRecD opc args dly) → t = s.cfg.initTable)

/-- A reserved request code is `R_REQ` before any other check, also with `FAULT` set, and a request issued while another
has not returned is `R_BUSY` (R184, R185; the spec's decisions D15, D27). That it is `R_BUSY` also with a reserved code or
with `FAULT` set is the model's (log 19). -/
def Obligations.ReservedAndOverlappedRequestsAreRefused : Prop :=
  ∀ (s : State) (rest : List Item),
    (∀ req ints bytes, 8 ≤ req.toNat → s.agenda = .issue (.request req ints bytes) :: rest →
      step s = .refused (.rReq req)) ∧
    (∀ c, s.agenda = .overlap c :: rest → step s = .refused .rBusy)

/-- A reset of the block, and nothing else, clears `FAULT`: it puts every field at its reset value under the same
configuration (R187, R200, D27); with nothing asked the block keeps all state (R194). That what the host still wants
stays is the model's (log 20). -/
def Obligations.BlockResetClearsAndIdleKeeps : Prop :=
  (∀ (s : State) (rest : List Item), s.agenda = .blockReset :: rest →
    step s = .next { State.resetWith s.cfg with agenda := rest }) ∧
  ∀ s : State, s.agenda = [] → step s = .next s

/-- The reset values the spec gives (R27, R200), for every configuration; the registers R27 leaves unspecified are not
named. -/
def Obligations.ResetLeavesTheValuesTheSpecGives : Prop :=
  ∀ c : Config, ∃ s, s = State.resetWith c ∧
    s.phase = .uninitialized ∧ s.fault = none ∧ s.rstPresent = false ∧ s.dcPresent = false ∧ s.blPresent = false ∧
    s.csPresent = false ∧ s.fb = none ∧ s.tp = 0 ∧ s.sp = 0 ∧ s.dc = .undriven ∧ s.rst = .undriven ∧
    s.bl = .undriven ∧ s.cs = .released ∧ s.trace = [] ∧ s.cfg = c ∧ State.reset = State.resetWith State.reset.cfg

/-! ## Framing primitives -/

/-- `CMDW(b)` (R81): five events; `DC` ends high, `CS` released. -/
def Obligations.CommandWriteEmitsItsFrame : Prop :=
  ∀ (b : Byte) (s : State), s.CanSend →
    exec (.cmdw b) s = .next { s with
      trace := s.trace ++ [.dc .low, .cs .asserted, .tx b, .dc .high, .cs .released]
      dc := .driven .high, cs := .released }

/-- `DATW(b)` (R82): four events. -/
def Obligations.DataWriteEmitsItsFrame : Prop :=
  ∀ (b : Byte) (s : State), s.CanSend →
    exec (.datw b) s = .next { s with
      trace := s.trace ++ [.dc .high, .cs .asserted, .tx b, .cs .released]
      dc := .driven .high, cs := .released }

/-- `BLKW(bs)` (R83): all bytes in one transaction, any number of them; one byte is `DATW`. -/
def Obligations.BlockWriteEmitsOneTransaction : Prop :=
  ∀ (bs : List Byte) (s : State), s.CanSend →
    exec (.blkw bs) s = .next { s with
      trace := s.trace ++ [.dc .high, .cs .asserted] ++ bs.map Event.tx ++ [.cs .released]
      dc := .driven .high, cs := .released } ∧
    ∀ b, bs = [b] → exec (.blkw bs) s = exec (.datw b) s

/-! ## The command table interpreter -/

/-- `REC` (R92, D9): the opcode as a command frame, one data frame per argument, `TP` moves by 2 + `ARGN`. -/
def Obligations.RecordSendsOpcodeThenArguments : Prop :=
  ∀ (opc : Byte) (args : List Byte) (s : State), s.CanSend → s.tp + (2 + args.length) ≤ s.cfg.tlen →
    exec (.tblRec opc args) s = .next { s with
      trace := s.trace ++ (cmdFrame opc ++ args.flatMap dataFrame)
      dc := .driven .high, cs := .released
      tp := s.tp + (2 + args.length)
      scratch := ⟨opc, BitVec.ofNat 7 args.length, false, s.scratch.dly⟩ }

/-- `REC.D` (R93, R63, D9, D19): as `REC`, then a wait of `DLY` milliseconds, 500 for 255; `TP` moves by 3 + `ARGN`. -/
def Obligations.RecordWithDelayWaitsAfterItsBytes : Prop :=
  ∀ (opc : Byte) (args : List Byte) (dly : Byte) (s : State), s.CanSend → s.tp + (3 + args.length) ≤ s.cfg.tlen →
    exec (.tblRecD opc args dly) s = .next { s with
      trace := s.trace ++ (cmdFrame opc ++ args.flatMap dataFrame ++
        [.wait (if dly.toNat = 255 then 500 else dly.toNat)])
      dc := .driven .high, cs := .released
      tp := s.tp + (3 + args.length)
      scratch := ⟨opc, BitVec.ofNat 7 args.length, true, dly⟩ }

/-- A record that does not lie wholly inside the table raises `F_TABLE(TP)` before any event of it (R91, R96, D8): only
`FAULT` and the record scratch change. -/
def Obligations.RecordPastTheTableRaisesFTable : Prop :=
  ∀ (opc : Byte) (args : List Byte) (dly : Byte) (s : State), s.fault = none →
    (s.cfg.tlen < s.tp + (2 + args.length) →
      ∃ t, exec (.tblRec opc args) s = .next t ∧ t = { s with fault := some (.fTable s.tp), scratch := t.scratch }) ∧
    (s.cfg.tlen < s.tp + (3 + args.length) →
      ∃ t, exec (.tblRecD opc args dly) s = .next t ∧
        t = { s with fault := some (.fTable s.tp), scratch := t.scratch })

/-- `RUNTABLE` on a well-formed table (R94): every record once, in order, from index 0 to `TLEN`, with
`5 + 4 * ARGN + DLYF` events each; nothing but the trace, `TP`, `DC`, `CS` and the record scratch changes. -/
def Obligations.RuntableRunsEveryRecordInOrder : Prop :=
  ∀ (rs : List TableRecord) (s : State), s.CanSend → (∀ r ∈ rs, r.wf) → s.cfg.initTable = tableBytes rs →
    ∃ t, exec .runtable s = .next t ∧ t.tp = s.cfg.tlen ∧
      t.trace = s.trace ++ tableEvents rs ∧
      t.trace.length = s.trace.length + (rs.map TableRecord.eventCount).sum ∧
      t.dc = (if rs = [] then s.dc else .driven .high) ∧
      t = { s with trace := t.trace, tp := t.tp, dc := t.dc, scratch := t.scratch }

/-- `RUNTABLE` on a malformed table (R96, R182, D8): the records before the first that does not fit are executed in
full, then `F_TABLE` with its index, and nothing of it is sent; `DC` is high if a record was sent. -/
def Obligations.RuntableStopsAtTheRecordThatDoesNotFit : Prop :=
  ∀ (rs : List TableRecord) (bad : List Byte) (e : Reject) (s : State), s.CanSend → (∀ r ∈ rs, r.wf) →
    s.cfg.initTable = tableBytes rs ++ bad → bad ≠ [] → decodeRecord bad = .error e →
    ∃ t, exec .runtable s = .next t ∧ t.tp = (tableBytes rs).length ∧
      t.dc = (if rs = [] then s.dc else .driven .high) ∧
      t.fault = some (.fTable (tableBytes rs).length) ∧ t.trace = s.trace ++ tableEvents rs ∧
      t = { s with trace := t.trace, tp := t.tp, dc := t.dc, scratch := t.scratch, fault := t.fault }

/-! ## The pixel codec -/

/-- `ENC332` (R111, D4, D5) in the shift form of the rule. -/
def Obligations.Enc332PacksTheTopBits : Prop :=
  ∀ (r g b : Byte) (s : State),
    exec (.enc332 ⟨r, g, b⟩) s =
      .next { s with codec := .byte (((r >>> 5) <<< 5) ||| ((g >>> 5) <<< 2) ||| (b >>> 6)) }

/-- `ENC565` (R112, D5) in the shift form of the rule, in the model's result field (log 15); a standard pixel is stored
as its high byte, then its low byte (`20_memory.md` R42). -/
def Obligations.Enc565PacksTheTopBits : Prop :=
  ∀ (r g b : Byte) (s : State), ∃ p : Half,
    exec (.enc565 ⟨r, g, b⟩) s = .next { s with codec := .half p } ∧
    p = (((r >>> 3).setWidth 16 <<< 11) ||| ((g >>> 2).setWidth 16 <<< 5) ||| (b >>> 3).setWidth 16) ∧
    hi8 p ++ lo8 p = p ∧
    ∀ cfg : Config, cfg.format = .standard → pixelBytes cfg ⟨r, g, b⟩ = [hi8 p, lo8 p]

/-- `DEC565` (R113): the three fields of the half, and the exact inverse of the packing of R112. -/
def Obligations.Dec565SplitsAndUndoesEnc565 : Prop :=
  ∀ (p : Half) (c : Rgb) (s : State),
    (∃ r5 g6 b5, exec (.dec565 p) s = .next { s with codec := .channels r5 g6 b5 } ∧
      r5.toNat = p.toNat / 2048 ∧ g6.toNat = p.toNat / 32 % 64 ∧ b5.toNat = p.toNat % 32) ∧
    exec (.dec565 (enc565 c)) s =
      .next { s with codec := .channels (c.r.extractLsb 7 3) (c.g.extractLsb 7 2) (c.b.extractLsb 7 3) }

/-- `EXPAND332` (R114, R116): for every configuration the law `ENC332(EXPAND332(v)) = v`, and zero fill for the default
(D6; that a configuration is given by its fill bits is the model's, log 4). -/
def Obligations.Expand332KeepsTheStoredBits : Prop :=
  ∀ (v : Byte) (s : State), ∃ c, exec (.expand332 v) s = .next { s with codec := .color c } ∧ enc332 c = v ∧
    (s.cfg.expandFill = [] →
      c = ⟨(v >>> 5) <<< 5, ((v >>> 2) &&& 7) <<< 5, (v &&& 3) <<< 6⟩)

/-- `REQ565` (R115): `ENC565` of `EXPAND332`, and the rule's formula under the default. -/
def Obligations.Req565RequantizesTheExpansion : Prop :=
  ∀ (v : Byte) (s : State), ∃ p, exec (.req565 v) s = .next { s with codec := .half p } ∧
    p = enc565 (expand332 s.cfg v) ∧
    (s.cfg.expandFill = [] →
      p = (((v >>> 5).setWidth 16 <<< 13) ||| (((v >>> 2) &&& 7).setWidth 16 <<< 8) |||
        ((v &&& 3).setWidth 16 <<< 3)))

/-- The two idempotence properties of the source (R116, R117; V2, V3): re-expanding an expanded value gives the same
wire half, and re-encoding a truncated colour the same half. -/
def Obligations.SecondPassThroughTheCodecChangesNothing : Prop :=
  ∀ (cfg : Config) (c : Rgb),
    req565 cfg (enc332 (expand332 cfg (enc332 c))) = req565 cfg (enc332 c) ∧
    enc565 ⟨dec565r (enc565 c) ++ 0#3, dec565g (enc565 c) ++ 0#2, dec565b (enc565 c) ++ 0#3⟩ = enc565 c

/-- Every expansion function with the law of R116 is some configuration's `EXPAND332`: the fill bits lose none (log 4). -/
def Obligations.EveryLawfulExpansionIsAConfiguration : Prop :=
  ∀ f : Byte → Rgb, (∀ v, enc332 (f v) = v) →
    ∃ fill : List Fill, ∀ c : Config, c.expandFill = fill → ∀ v, expand332 c v = f v

/-! ## Pixels -/

/-- `SETPIXEL` in range (R119, R42, R44): the bytes of the colour at `OFF(x, y)`, high byte first, and every other byte
of the buffer, and all else, unchanged. -/
def Obligations.SetpixelStoresExactlyItsPixel : Prop :=
  ∀ (x y : Nat) (c : Rgb) (s : State) (m : Memory), s.fault = none → s.phase = .ready → s.fb = some m →
    Memory.wf m = true → x < s.cfg.width → y < s.cfg.height →
    ∃ m', exec (.setpixel x y c) s = .next { s with fb := some m' } ∧
      (s.cfg.format = .reduced →
        Memory.read m' (x + y * s.cfg.width) = enc332 c ∧
        ∀ a, a ≠ x + y * s.cfg.width → Memory.read m' a = Memory.read m a) ∧
      (s.cfg.format = .standard →
        Memory.read m' ((x + y * s.cfg.width) * 2) = hi8 (enc565 c) ∧
        Memory.read m' ((x + y * s.cfg.width) * 2 + 1) = lo8 (enc565 c) ∧
        ∀ a, a ≠ (x + y * s.cfg.width) * 2 → a ≠ (x + y * s.cfg.width) * 2 + 1 →
          Memory.read m' a = Memory.read m a)

/-- `SETPIXEL` out of range raises `F_PIXEL(x, y)` (R183, D13): the buffer and all else unchanged. -/
def Obligations.SetpixelOffThePanelRaisesFPixel : Prop :=
  ∀ (x y : Int) (c : Rgb) (s : State), s.fault = none → s.phase = .ready →
    (x < 0 ∨ (s.cfg.width : Int) ≤ x ∨ y < 0 ∨ (s.cfg.height : Int) ≤ y) →
    exec (.setpixel x y c) s = .next { s with fault := some (.fPixel x y) }

/-- Pixels lie inside the buffer and apart from each other (R118, R42). -/
def Obligations.PixelsLieInsideAndApart : Prop :=
  ∀ (c : Config) (x y x' y' : Nat), x < c.width → y < c.height → x' < c.width → y' < c.height →
    pixelOff c x y + c.bpp ≤ c.fblen ∧
    ((x, y) ≠ (x', y') → pixelOff c x y + c.bpp ≤ pixelOff c x' y' ∨ pixelOff c x' y' + c.bpp ≤ pixelOff c x y)

/-- `GETBUFLEN` (R120, D26) returns `W * H * BPP` in every state, in every phase and with `FAULT` set; `returns` is the
model's record of what the host was told (log 15). -/
def Obligations.GetbuflenAnswersInEveryState : Prop :=
  ∀ s : State, exec .getbuflen s = .next { s with
    returns := s.returns ++ [s.cfg.width * s.cfg.height * (match s.cfg.format with | .reduced => 1 | .standard => 2)] }

/-! ## The addressing window and the frame write -/

/-- `WINDOW` (R131, D11): the four ends, inclusive, without truncation. -/
def Obligations.WindowHoldsTheInclusiveEnds : Prop :=
  ∀ s : State, s.fault = none → 1 ≤ s.cfg.width → 1 ≤ s.cfg.height →
    s.cfg.colOffset + s.cfg.width - 1 ≤ 65535 → s.cfg.rowOffset + s.cfg.height - 1 ≤ 65535 →
    ∃ t, exec .window s = .next t ∧
      t.xs.toNat = s.cfg.colOffset ∧ t.xe.toNat = s.cfg.colOffset + s.cfg.width - 1 ∧
      t.ys.toNat = s.cfg.rowOffset ∧ t.ye.toNat = s.cfg.rowOffset + s.cfg.height - 1 ∧
      t = { s with xs := t.xs, xe := t.xe, ys := t.ys, ye := t.ye }

/-- `CASET` step (R132, D10): the command frame, then the four address bytes of `XS` and `XE` in one block frame. -/
def Obligations.CasetSendsTheColumnWindow : Prop :=
  ∀ s : State, s.CanSend →
    exec .caset s = .next { s with
      trace := s.trace ++ (cmdFrame s.cfg.opCaset ++ blockFrame [hi8 s.xs, lo8 s.xs, hi8 s.xe, lo8 s.xe])
      dc := .driven .high, cs := .released
      addr := ⟨hi8 s.xs, lo8 s.xs, hi8 s.xe, lo8 s.xe⟩ }

/-- `RASET` step (R133): the same for `YS` and `YE`. -/
def Obligations.RasetSendsTheRowWindow : Prop :=
  ∀ s : State, s.CanSend →
    exec .raset s = .next { s with
      trace := s.trace ++ (cmdFrame s.cfg.opRaset ++ blockFrame [hi8 s.ys, lo8 s.ys, hi8 s.ye, lo8 s.ye])
      dc := .driven .high, cs := .released
      addr := ⟨hi8 s.ys, lo8 s.ys, hi8 s.ye, lo8 s.ye⟩ } ∧
    (cmdFrame s.cfg.opRaset ++ blockFrame [hi8 s.ys, lo8 s.ys, hi8 s.ye, lo8 s.ye]).length = 12

/-- `RAMWR` step (R134): one command frame and no argument byte. -/
def Obligations.RamwrSendsOneCommandFrame : Prop :=
  ∀ s : State, s.CanSend →
    exec .ramwr s = .next { s with
      trace := s.trace ++ [.dc .low, .cs .asserted, .tx s.cfg.opRamwr, .dc .high, .cs .released]
      dc := .driven .high, cs := .released }

/-- `STREAM` step (R137): the whole payload in one block frame of `3 + 2 * NPIX` events; `SP` ends at `FBLEN`; the buffer
is not modified. -/
def Obligations.StreamSendsTheFrameInOneBlock : Prop :=
  ∀ (s : State) (m : Memory), s.CanSend → s.fb = some m →
    exec .stream s = .next { s with
      trace := s.trace ++ ([.dc .high, .cs .asserted] ++ (payload s.cfg m).map Event.tx ++ [.cs .released])
      dc := .driven .high, cs := .released, sp := s.cfg.fblen } ∧
    (blockFrame (payload s.cfg m)).length = 3 + 2 * (s.cfg.width * s.cfg.height)

/-- `PAYLOAD` (R135, R136): two bytes per pixel, row-major, high byte first, in either format. -/
def Obligations.PayloadIsRowMajorHighByteFirst : Prop :=
  ∀ (c : Config) (m : Memory),
    (payload c m).length = 2 * (c.width * c.height) ∧
    ∀ x y, x < c.width → y < c.height →
      (c.format = .standard →
        (payload c m)[2 * (x + y * c.width)]? = some (Memory.read m (pixelOff c x y)) ∧
        (payload c m)[2 * (x + y * c.width) + 1]? = some (Memory.read m (pixelOff c x y + 1))) ∧
      (c.format = .reduced →
        (payload c m)[2 * (x + y * c.width)]? = some (hi8 (req565 c (Memory.read m (pixelOff c x y)))) ∧
        (payload c m)[2 * (x + y * c.width) + 1]? = some (lo8 (req565 c (Memory.read m (pixelOff c x y)))))

/-- `UPDATE` (R138, R139, D10, D11): column window, row window, memory write, the whole buffer, in `32 + 2 * NPIX` events
and in this order; `PHASE` stays `Ready` and the buffer is not modified. -/
def Obligations.UpdateSendsOneWholeFrame : Prop :=
  ∀ (s : State) (m : Memory), s.CanSend → s.phase = .ready → s.fb = some m →
    1 ≤ s.cfg.width → 1 ≤ s.cfg.height →
    s.cfg.colOffset + s.cfg.width - 1 ≤ 65535 → s.cfg.rowOffset + s.cfg.height - 1 ≤ 65535 →
    ∃ (xs xe ys ye : Half) (es : List Event),
      xs.toNat = s.cfg.colOffset ∧ xe.toNat = s.cfg.colOffset + s.cfg.width - 1 ∧
      ys.toNat = s.cfg.rowOffset ∧ ye.toNat = s.cfg.rowOffset + s.cfg.height - 1 ∧
      es = cmdFrame s.cfg.opCaset ++ blockFrame [hi8 xs, lo8 xs, hi8 xe, lo8 xe] ++
        cmdFrame s.cfg.opRaset ++ blockFrame [hi8 ys, lo8 ys, hi8 ye, lo8 ye] ++
        cmdFrame s.cfg.opRamwr ++ blockFrame (payload s.cfg m) ∧
      es.length = 32 + 2 * (s.cfg.width * s.cfg.height) ∧
      exec .update s = .next { s with
        trace := s.trace ++ es
        dc := .driven .high, cs := .released, xs := xs, xe := xe, ys := ys, ye := ye
        addr := ⟨hi8 ys, lo8 ys, hi8 ye, lo8 ye⟩, sp := s.cfg.fblen }

/-- Two `UPDATE`s in a row emit identical events and leave the state as the first did (R138). -/
def Obligations.SecondUpdateEmitsTheSameEvents : Prop :=
  ∀ (s t : State), s.fault = none → s.phase = .ready → exec .update s = .next t →
    ∃ es, t.trace = s.trace ++ es ∧ es.length = 32 + 2 * (s.cfg.width * s.cfg.height) ∧
      exec .update t = .next { t with trace := t.trace ++ es }

/-! ## Controller sequencing -/

/-- The four pin requests before `INITIALIZE` (R150, D16): each sets its presence bit and nothing else, and emits
nothing. -/
def Obligations.PinRequestsSetTheirPresenceBit : Prop :=
  ∀ s : State, s.fault = none → s.phase = .uninitialized →
    exec .setrstpin s = .next { s with rstPresent := true } ∧
    exec .setdcpin s = .next { s with dcPresent := true } ∧
    exec .setblpin s = .next { s with blPresent := true } ∧
    exec .setcspin s = .next { s with csPresent := true }

/-- The table of R190 (D14): a request in a phase that does not serve it raises `F_PHASE` with the request and the
phase, before anything else. -/
def Obligations.RequestsInTheWrongPhaseRaiseFPhase : Prop :=
  ∀ (s : State) (x y : Int) (c : Rgb), s.fault = none →
    (s.phase ≠ .uninitialized →
      exec .setrstpin s = .next { s with fault := some (.fPhase .setrstpin s.phase) } ∧
      exec .setdcpin s = .next { s with fault := some (.fPhase .setdcpin s.phase) } ∧
      exec .setblpin s = .next { s with fault := some (.fPhase .setblpin s.phase) } ∧
      exec .setcspin s = .next { s with fault := some (.fPhase .setcspin s.phase) } ∧
      exec .initialise s = .next { s with fault := some (.fPhase .initialise s.phase) }) ∧
    (s.phase ≠ .ready →
      exec .update s = .next { s with fault := some (.fPhase .update s.phase) } ∧
      exec (.setpixel x y c) s = .next { s with fault := some (.fPhase .setpixel s.phase) })

/-- `RESETPULSE` (R153): high, 1 ms, low, 10 ms, high when the reset line is present; nothing when it is absent. -/
def Obligations.ResetpulseDrivesHighLowHigh : Prop :=
  ∀ s : State, s.fault = none →
    (s.rstPresent = true →
      exec .resetpulse s = .next { s with
        trace := s.trace ++ [.rst .high, .wait 1, .rst .low, .wait 10, .rst .high]
        rst := .driven .high, phase := .resetting }) ∧
    (s.rstPresent = false → exec .resetpulse s = .next { s with phase := .resetting })

/-- `SETTLE` (R154, D17): one wait of `SETTLE_MS`. -/
def Obligations.SettleWaitsOnce : Prop :=
  ∀ s : State, s.fault = none →
    exec .settle s = .next { s with trace := s.trace ++ [.wait s.cfg.settleMs], phase := .runningInitTable }

/-- `COLMOD` step (R156, R71, D20): the code depends on `COLOR_BITS` > 16 alone. -/
def Obligations.ColmodSendsTheSelectedCode : Prop :=
  ∀ s : State, s.CanSend →
    exec .colmod s = .next { s with
      trace := s.trace ++ (cmdFrame s.cfg.opColmod ++
        dataFrame (if 16 < s.cfg.colorBits then s.cfg.colmodGt16 else s.cfg.colmodLe16))
      dc := .driven .high, cs := .released }

/-- `MADCTL` step (R157): the RotationTable entry, or the fixed default; entries 0 and 6 are 0x60 and 0x00. That an index
above 7, no legal configuration, is refused here too is the model's (log 14). -/
def Obligations.MadctlSendsTheOrientationByte : Prop :=
  ∀ s : State, s.CanSend →
    (∀ b, (s.cfg.rotation = none ∧ b = s.cfg.madctlDefault ∨
        ∃ i, s.cfg.rotation = some i ∧
          [0x60, s.cfg.rot1, s.cfg.rot2, s.cfg.rot3, s.cfg.rot4, s.cfg.rot5, 0x00, s.cfg.rot7][i]? = some b) →
      exec .madctl s = .next { s with
        trace := s.trace ++ (cmdFrame s.cfg.opMadctl ++ dataFrame b)
        dc := .driven .high, cs := .released }) ∧
    (∀ i, s.cfg.rotation = some i → 7 < i → exec .madctl s = .refused .rConfig)

/-- `INVON` step (R158, D22): the command when `INVERT` = 1, nothing when 0; then `Configured`. -/
def Obligations.InvonSendsOnlyWhenInverting : Prop :=
  ∀ s : State, s.fault = none →
    (s.cfg.invert = true → s.CanSend →
      exec .invon s = .next { s with
        trace := s.trace ++ cmdFrame s.cfg.opInvon
        dc := .driven .high, cs := .released, phase := .configured }) ∧
    (s.cfg.invert = false → exec .invon s = .next { s with phase := .configured })

/-- `ALLOCATE` and `BACKLIGHT` (R159, D23): every byte of the buffer 0, the backlight written when present, `Ready`. -/
def Obligations.AllocateZeroFillsAndEnablesTheBacklight : Prop :=
  ∀ s : State, s.fault = none →
    ∃ t, exec .allocateBacklight s = .next t ∧
      t = { s with
        trace := s.trace ++ (if s.blPresent then [.bl .high] else [])
        bl := if s.blPresent then .driven .high else s.bl
        fb := t.fb, phase := .ready } ∧
      ∀ a, t.fbRead a = if a < s.cfg.width * s.cfg.height * s.cfg.bpp then some 0 else none

/-- `INITIALIZE` on a legal configuration and a well-formed table (R151, R160, R203): the whole trace, in order, and
every field on return; with nothing more asked that is a final state (R186, log 28). -/
def Obligations.InitializeBringsThePanelUp : Prop :=
  ∀ (s : State) (rs : List TableRecord) (orient : Byte), s.CanSend → s.phase = .uninitialized →
    configWF s.cfg = true → (∀ r ∈ rs, r.wf) → s.cfg.initTable = tableBytes rs → madctlByte s.cfg = some orient →
    ∃ t, exec .initialise s = .next t ∧
      t.trace = s.trace ++
        ((if s.rstPresent then [.rst .high, .wait 1, .rst .low, .wait 10, .rst .high] else []) ++
        [.wait s.cfg.settleMs] ++ tableEvents rs ++
        (cmdFrame s.cfg.opColmod ++ dataFrame (if 16 < s.cfg.colorBits then s.cfg.colmodGt16 else s.cfg.colmodLe16)) ++
        (cmdFrame s.cfg.opMadctl ++ dataFrame orient) ++
        (if s.cfg.invert then cmdFrame s.cfg.opInvon else []) ++
        (if s.blPresent then [.bl .high] else [])) ∧
      (s.agenda = [] → t.Final) ∧
      t = { s with
        trace := t.trace, scratch := t.scratch, fb := t.fb
        phase := .ready, tp := s.cfg.tlen, dc := .driven .high, cs := .released
        rst := if s.rstPresent then .driven .high else s.rst
        bl := if s.blPresent then .driven .high else s.bl } ∧
      ∀ a, t.fbRead a = if a < s.cfg.fblen then some 0 else none

/-- `INITIALIZE` on a malformed table (R151, R155, R182, D8): it stops in `RunningInitTable` with `F_TABLE`, the buffer
unallocated as before and the backlight not written, `DC` high or as before, in no final state (R186). -/
def Obligations.InitializeStopsAtAMalformedTable : Prop :=
  ∀ (s : State) (rs : List TableRecord) (bad : List Byte) (e : Reject), s.CanSend → s.phase = .uninitialized →
    configWF s.cfg = true → (∀ r ∈ rs, r.wf) → s.cfg.initTable = tableBytes rs ++ bad → bad ≠ [] →
    decodeRecord bad = .error e →
    ∃ t, exec .initialise s = .next t ∧
      t.trace = s.trace ++
        ((if s.rstPresent then [.rst .high, .wait 1, .rst .low, .wait 10, .rst .high] else []) ++
        [.wait s.cfg.settleMs] ++ tableEvents rs) ∧
      t.dc = (if rs = [] then s.dc else .driven .high) ∧ ¬ t.Final ∧
      t = { s with
        trace := t.trace, scratch := t.scratch, dc := t.dc
        phase := .runningInitTable, tp := (tableBytes rs).length, fault := some (.fTable (tableBytes rs).length)
        rst := if s.rstPresent then .driven .high else s.rst }

/-- `INITIALIZE` without a legal configuration or one of the two lines is `R_CONFIG` (R184, D12, D15). -/
def Obligations.InitializeIsRefusedWithoutConfigOrLines : Prop :=
  ∀ s : State, s.fault = none → s.phase = .uninitialized →
    (s.cfg.width = 0 ∨ s.cfg.height = 0 ∨ 65535 < s.cfg.colOffset + s.cfg.width - 1 ∨
      65535 < s.cfg.rowOffset + s.cfg.height - 1 ∨ (∃ i, s.cfg.rotation = some i ∧ 7 < i) ∨
      s.dcPresent = false ∨ s.csPresent = false) →
    exec .initialise s = .refused .rConfig

/-- Where the spec gives an operation no meaning it stops by name. Every operation that gets as far as a frame is
refused without a line (R80, D15) and faults inside an open transaction (R80, log 10), `INITIALIZE` inside one too; a
buffer access without a buffer faults (R43, log 13); a window that does not fit is `R_CONFIG` (R131, log 14). That these
are stops, and their names, is the model's. -/
def Obligations.OperationsStopWhereTheSpecGivesNoMeaning : Prop :=
  ∀ s : State, s.fault = none →
    (∀ i : Instr, ReachesAFrame s i →
      ((s.dcPresent = false ∨ s.csPresent = false) → exec i s = .refused .linesAbsent) ∧
      (s.dcPresent = true → s.csPresent = true → s.cs = .asserted → exec i s = .fault .transactionOpen)) ∧
    (s.phase = .uninitialized → configWF s.cfg = true → s.dcPresent = true → s.csPresent = true → s.cs = .asserted →
      (s.cfg.initTable = [] ∨ ReachesAFrame s .runtable) → exec .initialise s = .fault .transactionOpen) ∧
    (s.fb = none → exec .stream s = .fault .bufferUnallocated) ∧
    (s.fb = none → s.CanSend → s.phase = .ready → windowFits s.cfg = true →
      exec .update s = .fault .bufferUnallocated) ∧
    (∀ (x y : Nat) (c : Rgb), s.fb = none → s.phase = .ready → x < s.cfg.width → y < s.cfg.height →
      exec (.setpixel x y c) s = .fault .bufferUnallocated) ∧
    ((s.cfg.width = 0 ∨ s.cfg.height = 0 ∨ 65535 < s.cfg.colOffset + s.cfg.width - 1 ∨
      65535 < s.cfg.rowOffset + s.cfg.height - 1) →
      exec .window s = .refused .rConfig ∧ (s.phase = .ready → exec .update s = .refused .rConfig))

/-! ## Faults and frames of the whole machine -/

/-- Once `FAULT` is set nothing but `GETBUFLEN` has an effect (R186, D27); the pure codec functions, which are no
requests, still answer (R110). That inner steps have none either is the model's reading (log 11). Until a reset of the
block the fault stays, and no run from there ends in a final state (R186, R187; what ends a run is log 28). -/
def Obligations.NothingRunsAfterAFault : Prop :=
  (∀ (s : State) (f : Raised) (i : Instr), s.fault = some f →
    exec i s = .next s ∨ i = .getbuflen ∨
      ∃ out, exec i s = .next { s with codec := out } ∧
        ((∃ c, i = .enc332 c) ∨ (∃ c, i = .enc565 c) ∨ (∃ p, i = .dec565 p) ∨ (∃ v, i = .expand332 v) ∨
          ∃ v, i = .req565 v)) ∧
  ∀ (n : Nat) (s : State) (f : Raised), s.fault = some f → Item.blockReset ∉ s.agenda →
    (∀ t, steps n s = .next t → t.fault = some f) ∧ ¬ EndsWell (steps n s)

/-- What no instruction writes but those whose rule says so, register by register (R11 to R22, R43, R44, R7; `writes`
lists them). No instruction writes the configuration (R19), every one that completes leaves `CS` as it was (R80), and the
TRACE only grows (R7). -/
def Obligations.EachRegisterIsWrittenOnlyByItsOperation : Prop :=
  ∀ (i : Instr) (s t : State), exec i s = .next t →
    t.cfg = s.cfg ∧ t.agenda = s.agenda ∧ t.cs = s.cs ∧ (∃ es, t.trace = s.trace ++ es) ∧
    (.rstPresent ∉ writes i → t.rstPresent = s.rstPresent) ∧
    (.dcPresent ∉ writes i → t.dcPresent = s.dcPresent) ∧
    (.blPresent ∉ writes i → t.blPresent = s.blPresent) ∧
    (.csPresent ∉ writes i → t.csPresent = s.csPresent) ∧
    (.phase ∉ writes i → t.phase = s.phase) ∧
    (.fault ∉ writes i → t.fault = s.fault) ∧
    (.tp ∉ writes i → t.tp = s.tp) ∧
    (.sp ∉ writes i → t.sp = s.sp) ∧
    (.window ∉ writes i → t.xs = s.xs ∧ t.xe = s.xe ∧ t.ys = s.ys ∧ t.ye = s.ye) ∧
    (.recordScratch ∉ writes i → t.scratch = s.scratch) ∧
    (.addressScratch ∉ writes i → t.addr = s.addr) ∧
    (.dcLine ∉ writes i → t.dc = s.dc) ∧
    (.rstLine ∉ writes i → t.rst = s.rst) ∧
    (.blLine ∉ writes i → t.bl = s.bl) ∧
    (.buffer ∉ writes i → t.fb = s.fb) ∧
    (.trace ∉ writes i → t.trace = s.trace) ∧
    (.returns ∉ writes i → t.returns = s.returns) ∧
    (.codec ∉ writes i → t.codec = s.codec)

/-- `PHASE` under the host's requests (R17, R190): only `INITIALIZE` moves it, only from `Uninitialized`, and only to
`Ready` or, with `F_TABLE`, to `RunningInitTable`. -/
def Obligations.OnlyInitializeMovesThePhase : Prop :=
  ∀ (req : BitVec 4) (ints : List Int) (bytes : List Byte) (i : Instr) (s t : State),
    decode (.request req ints bytes) = .ok i → exec i s = .next t →
    t.phase = s.phase ∨
      (i = .initialise ∧ s.phase = .uninitialized ∧
        (t.phase = .ready ∧ t.fault = none ∨ t.phase = .runningInitTable ∧ ∃ tp, t.fault = some (.fTable tp)))

/-- Consequences of the trace grammar (R85): at every event of a well-framed trace, `TX` and `CS(release)` only inside a
transaction; `CS(assert)`, `RST`, `BL` and `WAIT` only outside; a `TX` with `DC` = 0 alone in its transaction; and the
trace ends with `CS` released. -/
def Obligations.FramedTracesKeepTheBusDiscipline : Prop :=
  ∀ es : List Event, Framed es → csAfter es = .released ∧
    ∀ (a b : List Event) (e : Event), es = a ++ e :: b →
      (csAfter a = .released → e ≠ .cs .released ∧ ∀ v, e ≠ .tx v) ∧
      (csAfter a = .asserted →
        e ≠ .cs .asserted ∧ (∀ l, e ≠ .rst l) ∧ (∀ l, e ≠ .bl l) ∧ ∀ n, e ≠ .wait n) ∧
      (∀ v, e = .tx v → dcAfter a = .driven .low →
        ∃ a' b', a = a' ++ [.dc .low, .cs .asserted] ∧ b = .dc .high :: .cs .released :: b')

/-! ## Invariants -/

/-- Every step keeps the invariant, whatever the agenda holds: canonical buffer inside `FBLEN`, pointers in range, whole
frames on the trace (R85), line registers at the last level written (R22). -/
def Obligations.EveryStepKeepsTheInvariant : Prop :=
  ∀ s t : State, s.Inv → step s = .next t → t.Inv

/-- The state after reset meets both invariants, for every configuration and every agenda of the host's. -/
def Obligations.ResetMeetsTheInvariants : Prop :=
  State.reset.Inv ∧ State.reset.BetweenRequests ∧
  ∀ (c : Config) (agenda : List Item),
    State.Inv { State.resetWith c with agenda := agenda } ∧
    ((∀ it ∈ agenda, it.fromHost = true) → State.BetweenRequests { State.resetWith c with agenda := agenda })

/-- Under a host that issues requests only, every step keeps what R23, R25 and R190 say holds between requests: lines at
rest, a phase the host can find, a buffer exactly in `Ready`. -/
def Obligations.HostRequestsKeepTheBlockAtRest : Prop :=
  ∀ s t : State, s.BetweenRequests → step s = .next t → t.BetweenRequests

/-- `INITIALIZE` and `UPDATE` as one transition are their inner steps run one by one (D31). -/
def Obligations.RequestsAreTheirSmallSteps : Prop :=
  ∀ s : State, s.fault = none → s.agenda = [] →
    (s.phase = .uninitialized → configWF s.cfg = true → s.dcPresent = true → s.csPresent = true →
      steps initItems.length { s with agenda := initItems } = exec .initialise s) ∧
    (s.phase = .ready →
      steps updateItems.length { s with agenda := updateItems } = exec .update s)

/-- `RUNTABLE` is `TP <- 0` and one turn of the loop per record (R94), whether the turns run inside it or one by one. -/
def Obligations.RuntableIsItsTurns : Prop :=
  ∀ (s : State) (rs : List TableRecord), s.CanSend → s.agenda = [] → (∀ r ∈ rs, r.wf) →
    s.cfg.initTable = tableBytes rs →
    steps rs.length { s with tp := 0, agenda := List.replicate rs.length .tableStep } = exec .runtable s
end

