-- ==== Sys2Proof/Laws/Memory.lean ====
section
/-! SUPPORT. The laws of the frame buffer memory: read after write, and that every write keeps the canonical form. -/

namespace Sys2Proof.Machine

/-- The canonical form of a memory with a first entry. -/
theorem Memory.wf_cons {k : Nat} {v : Byte} {m : Memory} :
    Memory.wf ((k, v) :: m) = true ↔ v ≠ 0 ∧ (∀ c ∈ m, k < c.1) ∧ Memory.wf m = true := by
  simp [Memory.wf, and_assoc]

/-- An address below every entry reads 0. -/
theorem Memory.read_of_lt {m : Memory} {a : Nat} (h : ∀ c ∈ m, a < c.1) : Memory.read m a = 0 := by
  induction m with
  | nil => rfl
  | cons c m ih =>
    obtain ⟨k, v⟩ := c
    have hk : a < k := h (k, v) (by simp)
    rw [Memory.read, if_neg (by omega), ih fun c hc => h c (by simp [hc])]

/-- A write adds no address but its own. -/
theorem Memory.mem_write {m : Memory} {a : Nat} {v : Byte} {c : Host.Cell} (h : c ∈ Memory.write m a v) :
    c.1 = a ∨ c ∈ m := by
  induction m with
  | nil =>
    simp only [Memory.write] at h
    split at h <;> simp_all
  | cons d m ih =>
    obtain ⟨k, w⟩ := d
    simp only [Memory.write] at h
    split at h
    · split at h
      · exact .inr h
      · rcases List.mem_cons.1 h with rfl | h
        · exact .inl rfl
        · exact .inr h
    · split at h
      · split at h
        · exact .inr (by simp [h])
        · rcases List.mem_cons.1 h with rfl | h
          · exact .inl rfl
          · exact .inr (by simp [h])
      · rcases List.mem_cons.1 h with rfl | h
        · exact .inr (by simp)
        · exact (ih h).imp id fun h => by simp [h]

/-- A write keeps the canonical form. -/
theorem Memory.wf_write {m : Memory} (h : Memory.wf m = true) (a : Nat) (v : Byte) :
    Memory.wf (Memory.write m a v) = true := by
  induction m with
  | nil =>
    simp only [Memory.write]
    split <;> simp_all [Memory.wf]
  | cons c m ih =>
    obtain ⟨k, w⟩ := c
    obtain ⟨hw, hk, hm⟩ := Memory.wf_cons.1 h
    simp only [Memory.write]
    split
    · split
      · exact h
      · next hlt hv =>
        refine Memory.wf_cons.2 ⟨hv, fun c hc => ?_, h⟩
        rcases List.mem_cons.1 hc with rfl | hc
        · exact hlt
        · exact hlt.trans (hk c hc)
    · split
      · next heq =>
        subst heq
        split
        · exact hm
        · next hv => exact Memory.wf_cons.2 ⟨hv, hk, hm⟩
      · next hlt hne =>
        refine Memory.wf_cons.2 ⟨hw, fun c hc => ?_, ih hm⟩
        rcases Memory.mem_write hc with h1 | h1
        · rw [h1]; omega
        · exact hk c h1

/-- Reading the address written gives the byte written. -/
theorem Memory.read_write_same {m : Memory} (h : Memory.wf m = true) (a : Nat) (v : Byte) :
    Memory.read (Memory.write m a v) a = v := by
  induction m with
  | nil =>
    simp only [Memory.write]
    split <;> simp_all [Memory.read]
  | cons c m ih =>
    obtain ⟨k, w⟩ := c
    obtain ⟨hw, hk, hm⟩ := Memory.wf_cons.1 h
    simp only [Memory.write]
    split
    · next hlt =>
      split
      · next hv =>
        rw [hv, Memory.read_of_lt]
        intro c hc
        rcases List.mem_cons.1 hc with rfl | hc
        · exact hlt
        · exact hlt.trans (hk c hc)
      · simp [Memory.read]
    · split
      · next heq =>
        subst heq
        split
        · next hv => rw [hv, Memory.read_of_lt hk]
        · simp [Memory.read]
      · next hlt hne => rw [Memory.read, if_neg (by omega), ih hm]

/-- Reading any other address gives what it gave before. -/
theorem Memory.read_write_other {m : Memory} (h : Memory.wf m = true) {a b : Nat} (hab : b ≠ a) (v : Byte) :
    Memory.read (Memory.write m a v) b = Memory.read m b := by
  induction m with
  | nil =>
    simp only [Memory.write]
    split <;> simp [Memory.read, Ne.symm hab]
  | cons c m ih =>
    obtain ⟨k, w⟩ := c
    obtain ⟨hw, hk, hm⟩ := Memory.wf_cons.1 h
    simp only [Memory.write]
    split
    · split
      · rfl
      · rw [Memory.read, if_neg (by omega)]
    · split
      · next heq =>
        subst heq
        split
        · rw [Memory.read, if_neg (by omega)]
        · simp [Memory.read, Ne.symm hab]
      · by_cases hb : k = b
        · simp [Memory.read, hb]
        · simp only [Memory.read, if_neg hb]; exact ih hm

/-- Writing bytes keeps the canonical form. -/
theorem Memory.wf_writeBytes {m : Memory} (h : Memory.wf m = true) (a : Nat) (bs : List Byte) :
    Memory.wf (Memory.writeBytes m a bs) = true := by
  induction bs generalizing m a with
  | nil => exact h
  | cons b bs ih => exact ih (Memory.wf_write h a b) (a + 1)

/-- Writing bytes adds no address outside them. -/
theorem Memory.mem_writeBytes {m : Memory} {a : Nat} {bs : List Byte} {c : Host.Cell}
    (h : c ∈ Memory.writeBytes m a bs) : (a ≤ c.1 ∧ c.1 < a + bs.length) ∨ c ∈ m := by
  induction bs generalizing m a with
  | nil => exact .inr h
  | cons b bs ih =>
    rcases ih h with h1 | h1
    · left; simp only [List.length_cons]; omega
    · rcases Memory.mem_write h1 with h2 | h2
      · left; simp only [List.length_cons]; omega
      · exact .inr h2

/-- Reading outside the bytes written gives what it gave before. -/
theorem Memory.read_writeBytes_other {m : Memory} (h : Memory.wf m = true) {a b : Nat} {bs : List Byte}
    (hb : b < a ∨ a + bs.length ≤ b) : Memory.read (Memory.writeBytes m a bs) b = Memory.read m b := by
  induction bs generalizing m a with
  | nil => rfl
  | cons v bs ih =>
    simp only [List.length_cons] at hb
    rw [Memory.writeBytes, ih (Memory.wf_write h a v) (by omega), Memory.read_write_other h (by omega)]

/-- Reading inside the bytes written gives the byte written there. -/
theorem Memory.read_writeBytes_same {m : Memory} (h : Memory.wf m = true) {a i : Nat} {bs : List Byte}
    (hi : i < bs.length) : Memory.read (Memory.writeBytes m a bs) (a + i) = bs[i] := by
  induction bs generalizing m a i with
  | nil => simp at hi
  | cons v bs ih =>
    rw [Memory.writeBytes]
    cases i with
    | zero =>
      rw [Memory.read_writeBytes_other (Memory.wf_write h a v) (by omega)]
      exact Memory.read_write_same h a v
    | succ i =>
      have := ih (m := Memory.write m a v) (a := a + 1) (Memory.wf_write h a v) (i := i) (by simpa using hi)
      rw [show a + (i + 1) = a + 1 + i by omega, this]
      simp

end Sys2Proof.Machine
end

