-- ==== Sys2Proof/Laws/State.lean ====
section
/-! SUPPORT. The small laws of the state's named updates, so that no later proof unfolds one. -/

namespace Sys2Proof.Machine

/-! ## One event -/

/-- An event changes the trace and the four line registers, nothing else. -/
theorem State.emit_eq (s : State) (e : Event) :
    s.emit e = { s with trace := s.trace ++ [e], dc := dcStep s.dc e, cs := csStep s.cs e, rst := rstStep s.rst e,
                        bl := blStep s.bl e } := by
  cases e <;> rfl

/-- A list of events changes the trace and the four line registers, nothing else. -/
theorem State.emitAll_eq (es : List Event) (s : State) :
    s.emitAll es = { s with trace := s.trace ++ es, dc := es.foldl dcStep s.dc, cs := es.foldl csStep s.cs,
                            rst := es.foldl rstStep s.rst, bl := es.foldl blStep s.bl } := by
  induction es generalizing s with
  | nil => simp [State.emitAll]
  | cons e es ih =>
    have h := ih (s.emit e)
    simp only [State.emitAll, List.foldl_cons] at h ⊢
    rw [h, State.emit_eq]
    simp

theorem State.emitAll_append (s : State) (es fs : List Event) : s.emitAll (es ++ fs) = (s.emitAll es).emitAll fs :=
  List.foldl_append

@[simp] theorem State.emitAll_trace (s : State) (es : List Event) : (s.emitAll es).trace = s.trace ++ es := by
  rw [State.emitAll_eq]
@[simp] theorem State.emitAll_dc (s : State) (es : List Event) : (s.emitAll es).dc = es.foldl dcStep s.dc := by
  rw [State.emitAll_eq]
@[simp] theorem State.emitAll_cs (s : State) (es : List Event) : (s.emitAll es).cs = es.foldl csStep s.cs := by
  rw [State.emitAll_eq]
@[simp] theorem State.emitAll_rst (s : State) (es : List Event) : (s.emitAll es).rst = es.foldl rstStep s.rst := by
  rw [State.emitAll_eq]
@[simp] theorem State.emitAll_bl (s : State) (es : List Event) : (s.emitAll es).bl = es.foldl blStep s.bl := by
  rw [State.emitAll_eq]
@[simp] theorem State.emitAll_cfg (s : State) (es : List Event) : (s.emitAll es).cfg = s.cfg := by
  rw [State.emitAll_eq]
@[simp] theorem State.emitAll_rstPresent (s : State) (es : List Event) : (s.emitAll es).rstPresent = s.rstPresent := by
  rw [State.emitAll_eq]
@[simp] theorem State.emitAll_dcPresent (s : State) (es : List Event) : (s.emitAll es).dcPresent = s.dcPresent := by
  rw [State.emitAll_eq]
@[simp] theorem State.emitAll_blPresent (s : State) (es : List Event) : (s.emitAll es).blPresent = s.blPresent := by
  rw [State.emitAll_eq]
@[simp] theorem State.emitAll_csPresent (s : State) (es : List Event) : (s.emitAll es).csPresent = s.csPresent := by
  rw [State.emitAll_eq]
@[simp] theorem State.emitAll_phase (s : State) (es : List Event) : (s.emitAll es).phase = s.phase := by
  rw [State.emitAll_eq]
@[simp] theorem State.emitAll_fault (s : State) (es : List Event) : (s.emitAll es).fault = s.fault := by
  rw [State.emitAll_eq]
@[simp] theorem State.emitAll_tp (s : State) (es : List Event) : (s.emitAll es).tp = s.tp := by
  rw [State.emitAll_eq]
@[simp] theorem State.emitAll_sp (s : State) (es : List Event) : (s.emitAll es).sp = s.sp := by
  rw [State.emitAll_eq]
@[simp] theorem State.emitAll_xs (s : State) (es : List Event) : (s.emitAll es).xs = s.xs := by
  rw [State.emitAll_eq]
@[simp] theorem State.emitAll_xe (s : State) (es : List Event) : (s.emitAll es).xe = s.xe := by
  rw [State.emitAll_eq]
@[simp] theorem State.emitAll_ys (s : State) (es : List Event) : (s.emitAll es).ys = s.ys := by
  rw [State.emitAll_eq]
@[simp] theorem State.emitAll_ye (s : State) (es : List Event) : (s.emitAll es).ye = s.ye := by
  rw [State.emitAll_eq]
@[simp] theorem State.emitAll_scratch (s : State) (es : List Event) : (s.emitAll es).scratch = s.scratch := by
  rw [State.emitAll_eq]
@[simp] theorem State.emitAll_addr (s : State) (es : List Event) : (s.emitAll es).addr = s.addr := by
  rw [State.emitAll_eq]
@[simp] theorem State.emitAll_fb (s : State) (es : List Event) : (s.emitAll es).fb = s.fb := by
  rw [State.emitAll_eq]
@[simp] theorem State.emitAll_returns (s : State) (es : List Event) : (s.emitAll es).returns = s.returns := by
  rw [State.emitAll_eq]
@[simp] theorem State.emitAll_codec (s : State) (es : List Event) : (s.emitAll es).codec = s.codec := by
  rw [State.emitAll_eq]
@[simp] theorem State.emitAll_agenda (s : State) (es : List Event) : (s.emitAll es).agenda = s.agenda := by
  rw [State.emitAll_eq]

@[simp] theorem State.emit_trace (s : State) (e : Event) : (s.emit e).trace = s.trace ++ [e] := rfl
@[simp] theorem State.emit_cfg (s : State) (e : Event) : (s.emit e).cfg = s.cfg := by
  rw [State.emit_eq]
@[simp] theorem State.emit_rstPresent (s : State) (e : Event) : (s.emit e).rstPresent = s.rstPresent := by
  rw [State.emit_eq]
@[simp] theorem State.emit_dcPresent (s : State) (e : Event) : (s.emit e).dcPresent = s.dcPresent := by
  rw [State.emit_eq]
@[simp] theorem State.emit_blPresent (s : State) (e : Event) : (s.emit e).blPresent = s.blPresent := by
  rw [State.emit_eq]
@[simp] theorem State.emit_csPresent (s : State) (e : Event) : (s.emit e).csPresent = s.csPresent := by
  rw [State.emit_eq]
@[simp] theorem State.emit_phase (s : State) (e : Event) : (s.emit e).phase = s.phase := by
  rw [State.emit_eq]
@[simp] theorem State.emit_fault (s : State) (e : Event) : (s.emit e).fault = s.fault := by
  rw [State.emit_eq]
@[simp] theorem State.emit_tp (s : State) (e : Event) : (s.emit e).tp = s.tp := by
  rw [State.emit_eq]
@[simp] theorem State.emit_sp (s : State) (e : Event) : (s.emit e).sp = s.sp := by
  rw [State.emit_eq]
@[simp] theorem State.emit_xs (s : State) (e : Event) : (s.emit e).xs = s.xs := by
  rw [State.emit_eq]
@[simp] theorem State.emit_xe (s : State) (e : Event) : (s.emit e).xe = s.xe := by
  rw [State.emit_eq]
@[simp] theorem State.emit_ys (s : State) (e : Event) : (s.emit e).ys = s.ys := by
  rw [State.emit_eq]
@[simp] theorem State.emit_ye (s : State) (e : Event) : (s.emit e).ye = s.ye := by
  rw [State.emit_eq]
@[simp] theorem State.emit_scratch (s : State) (e : Event) : (s.emit e).scratch = s.scratch := by
  rw [State.emit_eq]
@[simp] theorem State.emit_addr (s : State) (e : Event) : (s.emit e).addr = s.addr := by
  rw [State.emit_eq]
@[simp] theorem State.emit_fb (s : State) (e : Event) : (s.emit e).fb = s.fb := by
  rw [State.emit_eq]
@[simp] theorem State.emit_returns (s : State) (e : Event) : (s.emit e).returns = s.returns := by
  rw [State.emit_eq]
@[simp] theorem State.emit_codec (s : State) (e : Event) : (s.emit e).codec = s.codec := by
  rw [State.emit_eq]
@[simp] theorem State.emit_agenda (s : State) (e : Event) : (s.emit e).agenda = s.agenda := by
  rw [State.emit_eq]

/-! ## The record scratch -/

@[simp] theorem loadScratch_cfg (opc : Byte) (args : List Byte) (dly : Option Byte) (s : State) : (loadScratch opc args dly s).cfg = s.cfg := rfl
@[simp] theorem loadScratch_rstPresent (opc : Byte) (args : List Byte) (dly : Option Byte) (s : State) : (loadScratch opc args dly s).rstPresent = s.rstPresent := rfl
@[simp] theorem loadScratch_dcPresent (opc : Byte) (args : List Byte) (dly : Option Byte) (s : State) : (loadScratch opc args dly s).dcPresent = s.dcPresent := rfl
@[simp] theorem loadScratch_blPresent (opc : Byte) (args : List Byte) (dly : Option Byte) (s : State) : (loadScratch opc args dly s).blPresent = s.blPresent := rfl
@[simp] theorem loadScratch_csPresent (opc : Byte) (args : List Byte) (dly : Option Byte) (s : State) : (loadScratch opc args dly s).csPresent = s.csPresent := rfl
@[simp] theorem loadScratch_phase (opc : Byte) (args : List Byte) (dly : Option Byte) (s : State) : (loadScratch opc args dly s).phase = s.phase := rfl
@[simp] theorem loadScratch_fault (opc : Byte) (args : List Byte) (dly : Option Byte) (s : State) : (loadScratch opc args dly s).fault = s.fault := rfl
@[simp] theorem loadScratch_tp (opc : Byte) (args : List Byte) (dly : Option Byte) (s : State) : (loadScratch opc args dly s).tp = s.tp := rfl
@[simp] theorem loadScratch_sp (opc : Byte) (args : List Byte) (dly : Option Byte) (s : State) : (loadScratch opc args dly s).sp = s.sp := rfl
@[simp] theorem loadScratch_xs (opc : Byte) (args : List Byte) (dly : Option Byte) (s : State) : (loadScratch opc args dly s).xs = s.xs := rfl
@[simp] theorem loadScratch_xe (opc : Byte) (args : List Byte) (dly : Option Byte) (s : State) : (loadScratch opc args dly s).xe = s.xe := rfl
@[simp] theorem loadScratch_ys (opc : Byte) (args : List Byte) (dly : Option Byte) (s : State) : (loadScratch opc args dly s).ys = s.ys := rfl
@[simp] theorem loadScratch_ye (opc : Byte) (args : List Byte) (dly : Option Byte) (s : State) : (loadScratch opc args dly s).ye = s.ye := rfl
@[simp] theorem loadScratch_addr (opc : Byte) (args : List Byte) (dly : Option Byte) (s : State) : (loadScratch opc args dly s).addr = s.addr := rfl
@[simp] theorem loadScratch_fb (opc : Byte) (args : List Byte) (dly : Option Byte) (s : State) : (loadScratch opc args dly s).fb = s.fb := rfl
@[simp] theorem loadScratch_returns (opc : Byte) (args : List Byte) (dly : Option Byte) (s : State) : (loadScratch opc args dly s).returns = s.returns := rfl
@[simp] theorem loadScratch_codec (opc : Byte) (args : List Byte) (dly : Option Byte) (s : State) : (loadScratch opc args dly s).codec = s.codec := rfl
@[simp] theorem loadScratch_agenda (opc : Byte) (args : List Byte) (dly : Option Byte) (s : State) : (loadScratch opc args dly s).agenda = s.agenda := rfl
@[simp] theorem loadScratch_dc (opc : Byte) (args : List Byte) (dly : Option Byte) (s : State) : (loadScratch opc args dly s).dc = s.dc := rfl
@[simp] theorem loadScratch_cs (opc : Byte) (args : List Byte) (dly : Option Byte) (s : State) : (loadScratch opc args dly s).cs = s.cs := rfl
@[simp] theorem loadScratch_rst (opc : Byte) (args : List Byte) (dly : Option Byte) (s : State) : (loadScratch opc args dly s).rst = s.rst := rfl
@[simp] theorem loadScratch_bl (opc : Byte) (args : List Byte) (dly : Option Byte) (s : State) : (loadScratch opc args dly s).bl = s.bl := rfl
@[simp] theorem loadScratch_trace (opc : Byte) (args : List Byte) (dly : Option Byte) (s : State) : (loadScratch opc args dly s).trace = s.trace := rfl
@[simp] theorem loadHeader_cfg (opc : Byte) (n : BitVec 7) (d : Bool) (s : State) : (loadHeader opc n d s).cfg = s.cfg := rfl
@[simp] theorem loadHeader_rstPresent (opc : Byte) (n : BitVec 7) (d : Bool) (s : State) : (loadHeader opc n d s).rstPresent = s.rstPresent := rfl
@[simp] theorem loadHeader_dcPresent (opc : Byte) (n : BitVec 7) (d : Bool) (s : State) : (loadHeader opc n d s).dcPresent = s.dcPresent := rfl
@[simp] theorem loadHeader_blPresent (opc : Byte) (n : BitVec 7) (d : Bool) (s : State) : (loadHeader opc n d s).blPresent = s.blPresent := rfl
@[simp] theorem loadHeader_csPresent (opc : Byte) (n : BitVec 7) (d : Bool) (s : State) : (loadHeader opc n d s).csPresent = s.csPresent := rfl
@[simp] theorem loadHeader_phase (opc : Byte) (n : BitVec 7) (d : Bool) (s : State) : (loadHeader opc n d s).phase = s.phase := rfl
@[simp] theorem loadHeader_fault (opc : Byte) (n : BitVec 7) (d : Bool) (s : State) : (loadHeader opc n d s).fault = s.fault := rfl
@[simp] theorem loadHeader_tp (opc : Byte) (n : BitVec 7) (d : Bool) (s : State) : (loadHeader opc n d s).tp = s.tp := rfl
@[simp] theorem loadHeader_sp (opc : Byte) (n : BitVec 7) (d : Bool) (s : State) : (loadHeader opc n d s).sp = s.sp := rfl
@[simp] theorem loadHeader_xs (opc : Byte) (n : BitVec 7) (d : Bool) (s : State) : (loadHeader opc n d s).xs = s.xs := rfl
@[simp] theorem loadHeader_xe (opc : Byte) (n : BitVec 7) (d : Bool) (s : State) : (loadHeader opc n d s).xe = s.xe := rfl
@[simp] theorem loadHeader_ys (opc : Byte) (n : BitVec 7) (d : Bool) (s : State) : (loadHeader opc n d s).ys = s.ys := rfl
@[simp] theorem loadHeader_ye (opc : Byte) (n : BitVec 7) (d : Bool) (s : State) : (loadHeader opc n d s).ye = s.ye := rfl
@[simp] theorem loadHeader_addr (opc : Byte) (n : BitVec 7) (d : Bool) (s : State) : (loadHeader opc n d s).addr = s.addr := rfl
@[simp] theorem loadHeader_fb (opc : Byte) (n : BitVec 7) (d : Bool) (s : State) : (loadHeader opc n d s).fb = s.fb := rfl
@[simp] theorem loadHeader_returns (opc : Byte) (n : BitVec 7) (d : Bool) (s : State) : (loadHeader opc n d s).returns = s.returns := rfl
@[simp] theorem loadHeader_codec (opc : Byte) (n : BitVec 7) (d : Bool) (s : State) : (loadHeader opc n d s).codec = s.codec := rfl
@[simp] theorem loadHeader_agenda (opc : Byte) (n : BitVec 7) (d : Bool) (s : State) : (loadHeader opc n d s).agenda = s.agenda := rfl
@[simp] theorem loadHeader_dc (opc : Byte) (n : BitVec 7) (d : Bool) (s : State) : (loadHeader opc n d s).dc = s.dc := rfl
@[simp] theorem loadHeader_cs (opc : Byte) (n : BitVec 7) (d : Bool) (s : State) : (loadHeader opc n d s).cs = s.cs := rfl
@[simp] theorem loadHeader_rst (opc : Byte) (n : BitVec 7) (d : Bool) (s : State) : (loadHeader opc n d s).rst = s.rst := rfl
@[simp] theorem loadHeader_bl (opc : Byte) (n : BitVec 7) (d : Bool) (s : State) : (loadHeader opc n d s).bl = s.bl := rfl
@[simp] theorem loadHeader_trace (opc : Byte) (n : BitVec 7) (d : Bool) (s : State) : (loadHeader opc n d s).trace = s.trace := rfl

/-! ## Reset of the block -/

@[simp] theorem State.blockReset_cfg (s : State) : s.blockReset.cfg = s.cfg := rfl
@[simp] theorem State.blockReset_agenda (s : State) : s.blockReset.agenda = s.agenda := rfl
@[simp] theorem State.blockReset_fault (s : State) : s.blockReset.fault = none := rfl
@[simp] theorem State.blockReset_phase (s : State) : s.blockReset.phase = .uninitialized := rfl
@[simp] theorem State.blockReset_fb (s : State) : s.blockReset.fb = none := rfl
@[simp] theorem State.blockReset_trace (s : State) : s.blockReset.trace = [] := rfl

end Sys2Proof.Machine
end

