-- ==== Sys2Proof/Laws/Ops.lean ====
section
/-! SUPPORT. One law for each shared operation that says everything it can do. -/

namespace Sys2Proof.Machine

@[simp] theorem andThen_next (t : State) (k : State → Result) : andThen (.next t) k = k t := rfl
@[simp] theorem andThen_fault (f : Fault) (k : State → Result) : andThen (.fault f) k = .fault f := rfl
@[simp] theorem andThen_refused (q : Refusal) (k : State → Result) : andThen (.refused q) k = .refused q := rfl

/-- A sequence reaches a next state exactly through a next state of its first part. -/
theorem andThen_eq_next {r : Result} {k : State → Result} {t : State} :
    andThen r k = .next t ↔ ∃ u, r = .next u ∧ k u = .next t := by
  cases r <;> simp

/-- Without a fault the operation runs. -/
theorem whenLive_none {s : State} (h : s.fault = none) (k : State → Result) : whenLive s k = k s := by
  rw [whenLive, h]

/-- With a fault it has no effect. -/
theorem whenLive_some {s : State} {f : Raised} (h : s.fault = some f) (k : State → Result) :
    whenLive s k = .next s := by
  rw [whenLive, h]

/-- Either the state is live and the operation runs, or nothing happens. -/
theorem whenLive_eq_next {s t : State} {k : State → Result} :
    whenLive s k = .next t ↔ (s.fault = none ∧ k s = .next t) ∨ (s.fault ≠ none ∧ s = t) := by
  cases h : s.fault <;> simp [whenLive, h]

theorem inPhase_eq {p : Phase} {s : State} (h : s.phase = p) (req : HostReq) (k : State → Result) :
    inPhase p req s k = k s := by
  rw [inPhase, if_pos h]

theorem inPhase_ne {p : Phase} {s : State} (h : s.phase ≠ p) (req : HostReq) (k : State → Result) :
    inPhase p req s k = raise (.fPhase req s.phase) s := by
  rw [inPhase, if_neg h]

/-- The first fault is taken. -/
theorem raise_none {s : State} (h : s.fault = none) (f : Raised) : raise f s = .next { s with fault := some f } := by
  rw [raise, h]

/-- Raising changes `FAULT` at most. -/
theorem raise_eq_next {s t : State} {f : Raised} (h : raise f s = .next t) : t = { s with fault := t.fault } := by
  unfold raise at h
  split at h <;> cases h <;> rfl

/-- Where a frame can be sent, it is. -/
theorem sendFrame_next {s : State} (h : s.CanSend) (es : List Event) : sendFrame es s = .next (s.emitAll es) := by
  simp [sendFrame, h.dcLine, h.csLine, h.released]

/-- A frame is sent only with both lines and no transaction open, and only its events happen. -/
theorem sendFrame_eq_next {s t : State} {es : List Event} (h : sendFrame es s = .next t) :
    s.dcPresent = true ∧ s.csPresent = true ∧ s.cs = .released ∧ t = s.emitAll es := by
  unfold sendFrame at h
  split at h
  · cases h
  · split at h
    · cases h
    · next h1 h2 =>
      cases h
      simp only [not_or, Bool.not_eq_false] at h1
      refine ⟨h1.1, h1.2, ?_, rfl⟩
      cases hc : s.cs <;> simp_all

/-- `TX` events leave every line as it is. -/
@[simp] theorem foldl_dcStep_tx (bs : List Byte) (l : Line) : (bs.map Event.tx).foldl dcStep l = l := by
  induction bs with
  | nil => rfl
  | cons b bs ih => simpa [dcStep] using ih

@[simp] theorem foldl_csStep_tx (bs : List Byte) (l : ChipSelect) : (bs.map Event.tx).foldl csStep l = l := by
  induction bs with
  | nil => rfl
  | cons b bs ih => simpa [csStep] using ih

@[simp] theorem foldl_rstStep_tx (bs : List Byte) (l : Line) : (bs.map Event.tx).foldl rstStep l = l := by
  induction bs with
  | nil => rfl
  | cons b bs ih => simpa [rstStep] using ih

@[simp] theorem foldl_blStep_tx (bs : List Byte) (l : Line) : (bs.map Event.tx).foldl blStep l = l := by
  induction bs with
  | nil => rfl
  | cons b bs ih => simpa [blStep] using ih

/-- The state after whole frames: the events on the trace, `DC` high, `CS` released. -/
def State.afterFrames (s : State) (es : List Event) : State :=
  { s with trace := s.trace ++ es, dc := .driven .high, cs := .released }

theorem emitAll_cmdFrame (b : Byte) (s : State) : s.emitAll (cmdFrame b) = s.afterFrames (cmdFrame b) := by
  rw [State.emitAll_eq]
  rfl

theorem emitAll_dataFrame (b : Byte) (s : State) : s.emitAll (dataFrame b) = s.afterFrames (dataFrame b) := by
  rw [State.emitAll_eq]
  rfl

theorem emitAll_blockFrame (bs : List Byte) (s : State) : s.emitAll (blockFrame bs) = s.afterFrames (blockFrame bs) := by
  rw [State.emitAll_eq]
  simp [blockFrame, State.afterFrames, List.foldl_append, dcStep, csStep, rstStep, blStep]

/-- After whole frames the next frame can be sent. -/
theorem State.CanSend.afterFrames {s : State} (h : s.CanSend) (es : List Event) : (s.afterFrames es).CanSend :=
  ⟨h.live, h.dcLine, h.csLine, rfl⟩

@[simp] theorem State.afterFrames_afterFrames (s : State) (es fs : List Event) :
    (s.afterFrames es).afterFrames fs = s.afterFrames (es ++ fs) := by
  simp [State.afterFrames]

/-- A command frame where it can be sent. -/
theorem sendFrame_cmd {s : State} (h : s.CanSend) (b : Byte) :
    sendFrame (cmdFrame b) s = .next (s.afterFrames (cmdFrame b)) := by
  rw [sendFrame_next h, emitAll_cmdFrame]

/-- A data frame where it can be sent. -/
theorem sendFrame_data {s : State} (h : s.CanSend) (b : Byte) :
    sendFrame (dataFrame b) s = .next (s.afterFrames (dataFrame b)) := by
  rw [sendFrame_next h, emitAll_dataFrame]

/-- A block frame where it can be sent. -/
theorem sendFrame_block {s : State} (h : s.CanSend) (bs : List Byte) :
    sendFrame (blockFrame bs) s = .next (s.afterFrames (blockFrame bs)) := by
  rw [sendFrame_next h, emitAll_blockFrame]

/-- After at least one frame, the arguments go out one data frame each. -/
theorem sendData_afterFrames {s : State} (h : s.CanSend) (bs : List Byte) (es : List Event) :
    sendData bs (s.afterFrames es) = .next (s.afterFrames (es ++ bs.flatMap dataFrame)) := by
  induction bs generalizing es with
  | nil => simp [sendData]
  | cons b bs ih =>
    rw [sendData, sendFrame_data (h.afterFrames es), andThen_next, State.afterFrames_afterFrames, ih]
    simp

/-- A buffer write inside an allocated buffer stores its bytes and changes nothing else. -/
theorem fbWrite_next {s : State} {m : Memory} {a : Nat} {bs : List Byte} (h : s.fb = some m)
    (ha : a + bs.length ≤ s.cfg.fblen) : fbWrite a bs s = .next { s with fb := some (Memory.writeBytes m a bs) } := by
  simp [fbWrite, h, ha]

/-- A buffer write that answers has stored its bytes inside the buffer. -/
theorem fbWrite_eq_next {s t : State} {a : Nat} {bs : List Byte} (h : fbWrite a bs s = .next t) :
    ∃ m, s.fb = some m ∧ a + bs.length ≤ s.cfg.fblen ∧ t = { s with fb := some (Memory.writeBytes m a bs) } := by
  unfold fbWrite at h
  split at h
  · cases h
  · next m hm =>
    split at h
    · next hle => cases h; exact ⟨m, hm, hle, rfl⟩
    · cases h

end Sys2Proof.Machine
end

