-- ==== Sys2Proof/Laws/Sends.lean ====
section
/-! SUPPORT. The laws of the shared sends and of the window: where each can be sent, where it stops, and how long its
bytes are. -/

namespace Sys2Proof.Machine

/-- Without one of the two lines no frame has a meaning (`40_transport_framing.md` R80). -/
theorem sendFrame_noLines {s : State} (h : s.dcPresent = false ∨ s.csPresent = false) (es : List Event) :
    sendFrame es s = .refused .linesAbsent := by
  rw [sendFrame, if_pos h]

/-- Inside an open transaction no frame may run (R80). -/
theorem sendFrame_open {s : State} (hd : s.dcPresent = true) (hc : s.csPresent = true) (h : s.cs = .asserted)
    (es : List Event) : sendFrame es s = .fault .transactionOpen := by
  rw [sendFrame, if_neg (by simp [hd, hc]), if_pos h]

/-- A command with one argument. -/
theorem sendCmdArg_next {s : State} (h : s.CanSend) (op a : Byte) :
    sendCmdArg op a s = .next (s.afterFrames (cmdFrame op ++ dataFrame a)) := by
  rw [sendCmdArg, sendFrame_cmd h, andThen_next, sendFrame_data (h.afterFrames _), State.afterFrames_afterFrames]

/-- An address command, through the address scratch. -/
theorem sendAddress_next {s : State} (h : s.CanSend) (op : Byte) (a : Addr4) :
    sendAddress op a s = .next { s with
      trace := s.trace ++ (cmdFrame op ++ blockFrame a.bytes), dc := .driven .high, cs := .released, addr := a } := by
  have h' : State.CanSend { s with addr := a } := ⟨h.live, h.dcLine, h.csLine, h.released⟩
  rw [sendAddress, sendFrame_cmd h', andThen_next, sendFrame_block (h'.afterFrames _), State.afterFrames_afterFrames]
  rfl

/-- A pin request: nothing (a fault is set), the line supplied, or `F_PHASE`. -/
theorem supplyLine_eq_next {s t : State} {req : HostReq} {supply : State → State}
    (h : supplyLine req supply s = .next t) :
    t = s ∨ (s.fault = none ∧ s.phase = .uninitialized ∧ t = supply s) ∨
      (s.fault = none ∧ s.phase ≠ .uninitialized ∧ t = { s with fault := some (.fPhase req s.phase) }) := by
  unfold supplyLine at h
  rcases whenLive_eq_next.1 h with ⟨hf, h⟩ | ⟨-, rfl⟩
  · by_cases hp : s.phase = .uninitialized
    · rw [inPhase_eq hp] at h; cases h; exact .inr (.inl ⟨hf, hp, rfl⟩)
    · rw [inPhase_ne hp, raise_none hf] at h; cases h; exact .inr (.inr ⟨hf, hp, rfl⟩)
  · exact .inl rfl

/-- The window fits, as numbers (`00_scope.md` R8). -/
theorem windowFits_iff (c : Config) : windowFits c = true ↔
    1 ≤ c.width ∧ 1 ≤ c.height ∧ c.colOffset + c.width - 1 ≤ 65535 ∧ c.rowOffset + c.height - 1 ≤ 65535 := by
  simp [windowFits, and_assoc]

/-- In a window that fits, no end is truncated (`43_addressing_write.md` R131). -/
theorem windowEnds_toNat {c : Config} (h : windowFits c = true) :
    (winXs c).toNat = c.colOffset ∧ (winXe c).toNat = c.colOffset + c.width - 1 ∧
      (winYs c).toNat = c.rowOffset ∧ (winYe c).toNat = c.rowOffset + c.height - 1 := by
  have := (windowFits_iff c).1 h
  simp only [winXs, winXe, winYs, winYe, BitVec.toNat_ofNat]
  omega

theorem blockFrame_length (bs : List Byte) : (blockFrame bs).length = 3 + bs.length := by
  simp [blockFrame]; omega

/-- Four events for each argument byte. -/
theorem dataFrames_length (args : List Byte) : (args.flatMap dataFrame).length = 4 * args.length := by
  induction args with
  | nil => rfl
  | cons a as ih => simp [dataFrame] at ih ⊢; omega

/-- Parts of one length, joined. -/
theorem length_flatMap_const {α β : Type} (f : α → List β) (k : Nat) (l : List α) (h : ∀ a ∈ l, (f a).length = k) :
    (l.flatMap f).length = k * l.length := by
  induction l with
  | nil => simp
  | cons a l ih =>
    rw [List.flatMap_cons, List.length_append, h a (by simp), ih fun a ha => h a (by simp [ha]), List.length_cons,
      Nat.mul_add]
    omega

/-- One stored byte goes out as `2 / BPP` bytes (`43_addressing_write.md` R135). -/
theorem wireBytes_length (c : Config) (v : Byte) : (wireBytes c v).length = 2 / c.bpp := by
  unfold wireBytes Config.bpp
  cases c.format <;> simp

/-- A pixel is stored as `BPP` bytes (`20_memory.md` R42). -/
theorem pixelBytes_length (c : Config) (color : Rgb) : (pixelBytes c color).length = c.bpp := by
  unfold pixelBytes Config.bpp
  cases c.format <;> rfl

theorem onPanel_natCast {c : Config} {x y : Nat} (hx : x < c.width) (hy : y < c.height) : onPanel c x y = true := by
  simp [onPanel, hx, hy]

/-- Row-major numbers of pixels on the panel stay below `NPIX` (`20_memory.md` R42). -/
theorem pixelNumber_lt {c : Config} {x y : Nat} (hx : x < c.width) (hy : y < c.height) :
    x + y * c.width < c.width * c.height := by
  have : (y + 1) * c.width ≤ c.height * c.width := Nat.mul_le_mul_right _ hy
  rw [Nat.add_mul] at this
  rw [Nat.mul_comm c.width]
  omega

/-- Different pixels have different numbers. -/
theorem pixelNumber_inj {c : Config} {x y x' y' : Nat} (hx : x < c.width) (hx' : x' < c.width)
    (h : x + y * c.width = x' + y' * c.width) : x = x' ∧ y = y' := by
  have h1 := congrArg (· % c.width) h
  simp only [Nat.add_mul_mod_self_right, Nat.mod_eq_of_lt hx, Nat.mod_eq_of_lt hx'] at h1
  subst h1
  have hy : y * c.width = y' * c.width := by omega
  exact ⟨rfl, Nat.eq_of_mul_eq_mul_right (by omega) hy⟩

end Sys2Proof.Machine
end

