-- ==== Sys2Proof/Laws/Bits.lean ====
section
/-! SUPPORT. The bit fields as numbers: one law per field or packing, by which later proofs about encodings and colours
are arithmetic. -/

namespace Sys2Proof

/-- A concatenation as a number. -/
theorem toNat_append' {m n : Nat} (a : BitVec m) (b : BitVec n) : (a ++ b).toNat = a.toNat * 2 ^ n + b.toNat := by
  rw [BitVec.toNat_append, ← Nat.shiftLeft_add_eq_or_of_lt b.isLt, Nat.shiftLeft_eq]

/-- A slice as a number. -/
theorem toNat_extract {n : Nat} (hi lo : Nat) (a : BitVec n) :
    (a.extractLsb hi lo).toNat = a.toNat / 2 ^ lo % 2 ^ (hi - lo + 1) := by
  simp [BitVec.extractLsb, Nat.shiftRight_eq_div_pow]

theorem hi8_toNat (h : Half) : (hi8 h).toNat = h.toNat / 256 := by
  have := toNat_extract 15 8 h
  have hl := h.isLt
  have h2 : (hi8 h).toNat = _ := this
  rw [h2]; omega

theorem lo8_toNat (h : Half) : (lo8 h).toNat = h.toNat % 256 := by
  have h2 : (lo8 h).toNat = _ := toNat_extract 7 0 h
  rw [h2]; omega

/-- The two bytes of a half, high byte first, are the half (`20_memory.md` R45). -/
theorem hi8_append_lo8 (h : Half) : hi8 h ++ lo8 h = h := by
  apply BitVec.eq_of_toNat_eq
  have h2 : (hi8 h ++ lo8 h : Half).toNat = _ := toNat_append' (hi8 h) (lo8 h)
  rw [h2, hi8_toNat, lo8_toNat]; omega

theorem hdrArgn_toNat (h : Byte) : (hdrArgn h).toNat = h.toNat % 128 := by
  have h2 : (hdrArgn h).toNat = _ := toNat_extract 6 0 h
  rw [h2]; omega

theorem hdrDlyf_eq (h : Byte) : hdrDlyf h = decide (128 ≤ h.toNat) := by
  revert h; decide

theorem hdrDlyf_toNat (h : Byte) : (hdrDlyf h).toNat = h.toNat / 128 := by
  have := h.isLt
  rw [hdrDlyf_eq]
  by_cases hh : 128 ≤ h.toNat <;> simp [hh] <;> omega

theorem mkHdr_toNat (d : Bool) (n : Nat) : (mkHdr d n).toNat = d.toNat * 128 + n % 128 := by
  have h2 : (mkHdr d n).toNat = _ := toNat_append' (BitVec.ofBool d) (BitVec.ofNat 7 n)
  rw [h2]; cases d <;> simp

@[simp] theorem hdrArgn_mkHdr (d : Bool) (n : Nat) : hdrArgn (mkHdr d n) = BitVec.ofNat 7 n := by
  apply BitVec.eq_of_toNat_eq
  rw [hdrArgn_toNat, mkHdr_toNat, BitVec.toNat_ofNat]
  cases d <;> simp

@[simp] theorem hdrDlyf_mkHdr (d : Bool) (n : Nat) : hdrDlyf (mkHdr d n) = d := by
  rw [hdrDlyf_eq, mkHdr_toNat]
  cases d <;> simp; omega

theorem wireWord_toNat (d : Bool) (b : Byte) : (wireWord d b).toNat = d.toNat * 256 + b.toNat := by
  have h2 : (wireWord d b).toNat = _ := toNat_append' (BitVec.ofBool d) b
  rw [h2]; cases d <;> simp

@[simp] theorem wireByte_wireWord (d : Bool) (b : Byte) : wireByte (wireWord d b) = b := by
  apply BitVec.eq_of_toNat_eq
  have h2 : (wireByte (wireWord d b)).toNat = _ := toNat_extract 7 0 (wireWord d b)
  have := b.isLt
  rw [h2, wireWord_toNat]; cases d <;> simp <;> omega

@[simp] theorem wireDc_wireWord (d : Bool) (b : Byte) : wireDc (wireWord d b) = d := by
  have hb := b.isLt
  rw [wireDc, BitVec.getLsbD, wireWord_toNat, Nat.testBit_eq_decide_div_mod_eq]
  cases d <;> simp <;> omega

end Sys2Proof

namespace Sys2Proof.Machine

theorem enc332_toNat (c : Rgb) :
    (enc332 c).toNat = c.r.toNat / 32 * 32 + c.g.toNat / 32 * 4 + c.b.toNat / 64 := by
  have h2 : (enc332 c).toNat = _ :=
    toNat_append' (c.r.extractLsb 7 5 ++ c.g.extractLsb 7 5) (c.b.extractLsb 7 6)
  have := c.r.isLt; have := c.g.isLt; have := c.b.isLt
  rw [h2, toNat_append', toNat_extract, toNat_extract, toNat_extract]
  omega

theorem enc565_toNat (c : Rgb) :
    (enc565 c).toNat = c.r.toNat / 8 * 2048 + c.g.toNat / 4 * 32 + c.b.toNat / 8 := by
  have h2 : (enc565 c).toNat = _ :=
    toNat_append' (c.r.extractLsb 7 3 ++ c.g.extractLsb 7 2) (c.b.extractLsb 7 3)
  have := c.r.isLt; have := c.g.isLt; have := c.b.isLt
  rw [h2, toNat_append', toNat_extract, toNat_extract, toNat_extract]
  omega

theorem dec565r_toNat (p : Half) : (dec565r p).toNat = p.toNat / 2048 := by
  have h2 : (dec565r p).toNat = _ := toNat_extract 15 11 p
  have := p.isLt
  rw [h2]; omega

theorem dec565g_toNat (p : Half) : (dec565g p).toNat = p.toNat / 32 % 64 := by
  have h2 : (dec565g p).toNat = _ := toNat_extract 10 5 p
  rw [h2]; omega

theorem dec565b_toNat (p : Half) : (dec565b p).toNat = p.toNat % 32 := by
  have h2 : (dec565b p).toNat = _ := toNat_extract 4 0 p
  rw [h2]; omega

theorem expand332_r_toNat (c : Config) (v : Byte) :
    (expand332 c v).r.toNat = v.toNat / 32 * 32 + (fillOf c v).r.toNat := by
  have h2 : (expand332 c v).r.toNat = _ := toNat_append' (v.extractLsb 7 5) (fillOf c v).r
  have := v.isLt
  rw [h2, toNat_extract]; omega

theorem expand332_g_toNat (c : Config) (v : Byte) :
    (expand332 c v).g.toNat = v.toNat / 4 % 8 * 32 + (fillOf c v).g.toNat := by
  have h2 : (expand332 c v).g.toNat = _ := toNat_append' (v.extractLsb 4 2) (fillOf c v).g
  rw [h2, toNat_extract]; omega

theorem expand332_b_toNat (c : Config) (v : Byte) :
    (expand332 c v).b.toNat = v.toNat % 4 * 64 + (fillOf c v).b.toNat := by
  have h2 : (expand332 c v).b.toNat = _ := toNat_append' (v.extractLsb 1 0) (fillOf c v).b
  rw [h2, toNat_extract]; omega

end Sys2Proof.Machine
end

