-- ==== Sys2Proof/Laws/Record.lean ====
section
/-! SUPPORT. The laws of reading one table record (`41_command_table.md` R91): what succeeds, what fails, and what the
bytes were. -/

namespace Sys2Proof


/-- The bytes after the header, as a number: `ARGN + DLYF` (`30_encoding.md` R64). -/
theorem hdrTail_eq (h : Byte) : hdrTail h = h.toNat % 128 + h.toNat / 128 := by
  rw [hdrTail, hdrArgn_toNat, hdrDlyf_toNat]

/-- The instruction that a record's fields make. -/
def recInstr (opc : Byte) (args : List Byte) : Option Byte → Instr
  | none => .tblRec opc args
  | some d => .tblRecD opc args d

/-- `RECLEN` bytes (R64). -/
theorem recordBytes_length (opc : Byte) (args : List Byte) (dly : Option Byte) :
    (recordBytes opc args dly).length = 2 + args.length + dly.isSome.toNat := by
  cases dly <;> simp [recordBytes] <;> omega

/-- A record in front of any bytes is read back, and those bytes are left. -/
theorem decodeRecord_bytes (opc : Byte) (args rest : List Byte) (dly : Option Byte) (h : args.length ≤ 127) :
    decodeRecord (recordBytes opc args dly ++ rest) = .ok (recInstr opc args dly, rest) := by
  have hn : (BitVec.ofNat 7 args.length).toNat = args.length := by simp; omega
  cases dly with
  | none =>
    simp [recordBytes, decodeRecord, hdrTail, hn, recInstr]
  | some d =>
    simp only [recordBytes, decodeRecord, hdrTail, hn, recInstr, hdrArgn_mkHdr, hdrDlyf_mkHdr, List.cons_append]
    simp [List.getD]

/-- A read fails exactly when the header is missing or the bytes after it are too few. -/
theorem decodeRecord_error_iff (bs : List Byte) :
    (∃ e, decodeRecord bs = .error e) ↔ bs.length < 2 ∨ ∃ opc hdr tl, bs = opc :: hdr :: tl ∧ tl.length < hdrTail hdr := by
  match bs with
  | [] => simp [decodeRecord]
  | [a] => simp [decodeRecord]
  | opc :: hdr :: tl =>
    simp only [decodeRecord, List.length_cons]
    split
    · next h => simp [h]
    · next h =>
      split <;> simp [h]

/-- A read that succeeds: the bytes were this record's, with these counts, and then the rest. -/
theorem decodeRecord_ok {bs rest : List Byte} {i : Instr} (h : decodeRecord bs = .ok (i, rest)) :
    ∃ opc hdr args dly, bs = recordBytes opc args dly ++ rest ∧ i = recInstr opc args dly ∧
      args.length ≤ 127 ∧ bs[1]? = some hdr ∧ args.length = hdr.toNat % 128 ∧ dly.isSome.toNat = hdr.toNat / 128 ∧ hdrTail hdr = args.length + dly.isSome.toNat := by
  match bs with
  | [] => simp [decodeRecord] at h
  | [a] => simp [decodeRecord] at h
  | opc :: hdr :: tl =>
    simp only [decodeRecord] at h
    split at h
    · cases h
    · next hlen =>
      have hT := hdrTail_eq hdr
      have hA := hdrArgn_toNat hdr
      have hD := hdrDlyf_toNat hdr
      have hlt := hdr.isLt
      have hargs : (tl.take (hdrArgn hdr).toNat).length = hdr.toNat % 128 := by
        rw [List.length_take]; omega
      have hmk : ∀ d : Bool, d.toNat = hdr.toNat / 128 → mkHdr d (hdr.toNat % 128) = hdr := by
        intro d hd
        apply BitVec.eq_of_toNat_eq
        rw [mkHdr_toNat]; omega
      split at h
      · next hd =>
        simp only [Except.ok.injEq, Prod.mk.injEq] at h
        obtain ⟨rfl, rfl⟩ := h
        have hd1 : hdr.toNat / 128 = 1 := by rw [← hD, hd]; rfl
        refine ⟨opc, hdr, tl.take (hdrArgn hdr).toNat, some (tl.getD (hdrArgn hdr).toNat 0), ?_, rfl, ?_, rfl, ?_, ?_, ?_⟩
        · simp only [recordBytes, hargs, Option.isSome_some, hmk true (by simp [hd1]), Option.toList_some, List.cons_append]
          congr 2
          have hi : (hdrArgn hdr).toNat < tl.length := by omega
          have : hdrTail hdr = (hdrArgn hdr).toNat + 1 := by omega
          rw [this, List.append_assoc]
          conv_lhs => rw [← List.take_append_drop (hdrArgn hdr).toNat tl]
          congr 1
          rw [List.drop_eq_getElem_cons hi]
          simp [List.getD, hi]
        · omega
        · omega
        · simp [hd1]
        · simp; omega
      · next hd =>
        simp only [Except.ok.injEq, Prod.mk.injEq] at h
        obtain ⟨rfl, rfl⟩ := h
        have hd1 : hdr.toNat / 128 = 0 := by rw [← hD]; simp [hd]
        refine ⟨opc, hdr, tl.take (hdrArgn hdr).toNat, none, ?_, rfl, ?_, rfl, ?_, ?_, ?_⟩
        · simp only [recordBytes, hargs, Option.isSome_none, hmk false (by simp [hd1]), Option.toList_none, List.cons_append, List.append_nil]
          congr 2
          have : hdrTail hdr = (hdrArgn hdr).toNat := by omega
          rw [this, List.take_append_drop]
        · omega
        · omega
        · simp [hd1]
        · simp; omega

end Sys2Proof
end

