-- ==== Sys2Proof/Laws/Table.lean ====
section
/-! SUPPORT. The laws of the interpreter's shared operations: a record that fits, a record that does not, one turn of the
loop, the loop at its end. -/

namespace Sys2Proof.Machine


/-- Loading the scratch does not touch what sending needs. -/
theorem canSend_loadScratch {s : State} (h : s.CanSend) (opc : Byte) (args : List Byte) (dly : Option Byte) :
    (loadScratch opc args dly s).CanSend := ⟨h.live, h.dcLine, h.csLine, h.released⟩

/-- The delay is one more event after the frames. -/
theorem emitAll_wait_afterFrames (s : State) (es : List Event) (dly : Option Byte) :
    (s.afterFrames es).emitAll (recordWait dly) = s.afterFrames (es ++ recordWait dly) := by
  rw [State.emitAll_eq]
  cases dly <;> simp [recordWait, State.afterFrames, dcStep, csStep, rstStep, blStep]

/-- A record inside the table: its events, `TP` moved past it, its fields in the scratch. -/
theorem runRecord_next {s : State} (h : s.CanSend) (opc : Byte) (args : List Byte) (dly : Option Byte)
    (hle : s.tp + (2 + args.length + dly.isSome.toNat) ≤ s.cfg.tlen) :
    runRecord opc args dly s = .next { s with
      trace := s.trace ++ (cmdFrame opc ++ args.flatMap dataFrame ++ recordWait dly)
      dc := .driven .high, cs := .released
      tp := s.tp + (2 + args.length + dly.isSome.toNat)
      scratch := ⟨opc, BitVec.ofNat 7 args.length, dly.isSome, dly.getD s.scratch.dly⟩ } := by
  have hs := canSend_loadScratch h opc args dly
  rw [runRecord, if_neg (by omega), if_neg (by omega), sendFrame_cmd hs, andThen_next, sendData_afterFrames hs, andThen_next,
    emitAll_wait_afterFrames]
  rfl

/-- A record outside the table: `F_TABLE(TP)`, and nothing else but the scratch. -/
theorem runRecord_off {s : State} (h : s.fault = none) (opc : Byte) (args : List Byte) (dly : Option Byte)
    (hle : s.cfg.tlen < s.tp + (2 + args.length + dly.isSome.toNat)) :
    ∃ t, runRecord opc args dly s = .next t ∧ t = { s with fault := some (.fTable s.tp), scratch := t.scratch } := by
  unfold runRecord
  split
  · exact ⟨_, raise_none h _, rfl⟩
  · exact ⟨_, raise_none (by simpa using h) _, rfl⟩

/-- A record cut off by the end of the table: `F_TABLE(TP)`, and nothing else but the scratch. -/
theorem raiseCutOff_next {s : State} (h : s.fault = none) (bs : List Byte) :
    ∃ t, raiseCutOff bs s = .next t ∧ t = { s with fault := some (.fTable s.tp), scratch := t.scratch } := by
  unfold raiseCutOff
  split
  · exact ⟨_, raise_none (by simpa using h) _, rfl⟩
  · exact ⟨_, raise_none h _, rfl⟩

/-- A record that reads is run. -/
theorem recordAtTp_ok {s : State} {i : Instr} {tail : List Byte}
    (hd : decodeRecord (s.cfg.initTable.drop s.tp) = .ok (i, tail)) : recordAtTp s = exec i s := by
  obtain ⟨opc, hdr, args, dly, hbs, hi, -⟩ := decodeRecord_ok hd
  subst hi
  cases dly <;> simp [recordAtTp, hd, recInstr, exec]

/-- A record that does not read is cut off. -/
theorem recordAtTp_error {s : State} {e : Reject}
    (hd : decodeRecord (s.cfg.initTable.drop s.tp) = .error e) : recordAtTp s = raiseCutOff (s.cfg.initTable.drop s.tp) s := by
  simp [recordAtTp, hd]

/-- A record that reads starts inside the table. -/
theorem tp_lt_of_ok {s : State} {i : Instr} {tail : List Byte}
    (hd : decodeRecord (s.cfg.initTable.drop s.tp) = .ok (i, tail)) : s.tp < s.cfg.tlen := by
  by_contra h
  rw [List.drop_eq_nil_of_le (by unfold Config.tlen at h; omega)] at hd
  simp [decodeRecord] at hd

/-- A record does nothing once a fault is set. -/
theorem exec_recInstr_faulted {s : State} {f : Raised} (h : s.fault = some f) (opc : Byte) (args : List Byte) (dly : Option Byte) : exec (recInstr opc args dly) s = .next s := by
  cases dly <;> simp [recInstr, exec, execTblRec, execTblRecD, whenLive_some h]

/-- A turn of the loop runs the record that reads at `TP`. -/
theorem tableTurn_ok {s : State} {i : Instr} {tail : List Byte}
    (hd : decodeRecord (s.cfg.initTable.drop s.tp) = .ok (i, tail)) : tableTurn s = exec i s := by
  cases hf : s.fault with
  | none => rw [tableTurn, whenLive_none hf, if_pos (tp_lt_of_ok hd), recordAtTp_ok hd]
  | some f =>
    obtain ⟨opc, hdr, args, dly, hbs, hi, -⟩ := decodeRecord_ok hd
    rw [tableTurn, whenLive_some hf, hi, exec_recInstr_faulted hf]

/-- A turn at the end of the table does nothing. -/
theorem tableTurn_end {s : State} (h : s.cfg.tlen ≤ s.tp) : tableTurn s = .next s := by
  unfold tableTurn whenLive
  split
  · exact if_neg (by omega)
  · rfl

/-- Nor do any more turns. -/
theorem tableLoop_end {s : State} (h : s.cfg.tlen ≤ s.tp) (n : Nat) : tableLoop n s = .next s := by
  induction n with
  | zero => rfl
  | succ n ih => rw [tableLoop, tableTurn_end h, andThen_next, ih]

/-- Nor does any turn once a fault is set. -/
theorem tableLoop_fault {s : State} {f : Raised} (h : s.fault = some f) (n : Nat) : tableLoop n s = .next s := by
  induction n with
  | zero => rfl
  | succ n ih => rw [tableLoop, tableTurn, whenLive_some h, andThen_next, ih]

end Sys2Proof.Machine
end

