-- ==== Sys2Proof/Laws/Frames.lean ====
section
/-! SUPPORT. What each shared operation can write, said once: the frame of an operation is the list of registers it
writes, and lists compose. -/

namespace Sys2Proof.Machine

/-- From `s` to `t` no register outside `l` changed; the configuration, the agenda and `CS` are as before and the TRACE
only grew. -/
structure OnlyWrites (l : List Reg) (s t : State) : Prop where
  cfg : t.cfg = s.cfg
  agenda : t.agenda = s.agenda
  cs : t.cs = s.cs
  grows : ∃ es, t.trace = s.trace ++ es
  rstPresent : .rstPresent ∉ l → t.rstPresent = s.rstPresent
  dcPresent : .dcPresent ∉ l → t.dcPresent = s.dcPresent
  blPresent : .blPresent ∉ l → t.blPresent = s.blPresent
  csPresent : .csPresent ∉ l → t.csPresent = s.csPresent
  phase : .phase ∉ l → t.phase = s.phase
  fault : .fault ∉ l → t.fault = s.fault
  tp : .tp ∉ l → t.tp = s.tp
  sp : .sp ∉ l → t.sp = s.sp
  window : .window ∉ l → t.xs = s.xs ∧ t.xe = s.xe ∧ t.ys = s.ys ∧ t.ye = s.ye
  scratch : .recordScratch ∉ l → t.scratch = s.scratch
  addr : .addressScratch ∉ l → t.addr = s.addr
  dc : .dcLine ∉ l → t.dc = s.dc
  rst : .rstLine ∉ l → t.rst = s.rst
  bl : .blLine ∉ l → t.bl = s.bl
  fb : .buffer ∉ l → t.fb = s.fb
  trace : .trace ∉ l → t.trace = s.trace
  returns : .returns ∉ l → t.returns = s.returns
  codec : .codec ∉ l → t.codec = s.codec

theorem OnlyWrites.refl (l : List Reg) (s : State) : OnlyWrites l s s := by
  constructor <;> simp

theorem OnlyWrites.trans {l : List Reg} {s t u : State} (a : OnlyWrites l s t) (b : OnlyWrites l t u) :
    OnlyWrites l s u where
  cfg := b.cfg.trans a.cfg
  agenda := b.agenda.trans a.agenda
  cs := b.cs.trans a.cs
  grows := by
    obtain ⟨es, h⟩ := a.grows
    obtain ⟨fs, h'⟩ := b.grows
    exact ⟨es ++ fs, by rw [h', h, List.append_assoc]⟩
  rstPresent h := (b.rstPresent h).trans (a.rstPresent h)
  dcPresent h := (b.dcPresent h).trans (a.dcPresent h)
  blPresent h := (b.blPresent h).trans (a.blPresent h)
  csPresent h := (b.csPresent h).trans (a.csPresent h)
  phase h := (b.phase h).trans (a.phase h)
  fault h := (b.fault h).trans (a.fault h)
  tp h := (b.tp h).trans (a.tp h)
  sp h := (b.sp h).trans (a.sp h)
  window h := ⟨(b.window h).1.trans (a.window h).1, (b.window h).2.1.trans (a.window h).2.1,
    (b.window h).2.2.1.trans (a.window h).2.2.1, (b.window h).2.2.2.trans (a.window h).2.2.2⟩
  scratch h := (b.scratch h).trans (a.scratch h)
  addr h := (b.addr h).trans (a.addr h)
  dc h := (b.dc h).trans (a.dc h)
  rst h := (b.rst h).trans (a.rst h)
  bl h := (b.bl h).trans (a.bl h)
  fb h := (b.fb h).trans (a.fb h)
  trace h := (b.trace h).trans (a.trace h)
  returns h := (b.returns h).trans (a.returns h)
  codec h := (b.codec h).trans (a.codec h)

/-- A longer list says less. -/
theorem OnlyWrites.mono {l l' : List Reg} {s t : State} (h : OnlyWrites l s t) (hl : l ⊆ l') : OnlyWrites l' s t where
  cfg := h.cfg
  agenda := h.agenda
  cs := h.cs
  grows := h.grows
  rstPresent h' := h.rstPresent fun m => h' (hl m)
  dcPresent h' := h.dcPresent fun m => h' (hl m)
  blPresent h' := h.blPresent fun m => h' (hl m)
  csPresent h' := h.csPresent fun m => h' (hl m)
  phase h' := h.phase fun m => h' (hl m)
  fault h' := h.fault fun m => h' (hl m)
  tp h' := h.tp fun m => h' (hl m)
  sp h' := h.sp fun m => h' (hl m)
  window h' := h.window fun m => h' (hl m)
  scratch h' := h.scratch fun m => h' (hl m)
  addr h' := h.addr fun m => h' (hl m)
  dc h' := h.dc fun m => h' (hl m)
  rst h' := h.rst fun m => h' (hl m)
  bl h' := h.bl fun m => h' (hl m)
  fb h' := h.fb fun m => h' (hl m)
  trace h' := h.trace fun m => h' (hl m)
  returns h' := h.returns fun m => h' (hl m)
  codec h' := h.codec fun m => h' (hl m)

/-- A sequence writes what its parts write. -/
theorem onlyWrites_andThen {l : List Reg} {s t : State} {r : Result} {k : State → Result}
    (hr : ∀ u, r = .next u → OnlyWrites l s u) (hk : ∀ u, k u = .next t → OnlyWrites l u t)
    (h : andThen r k = .next t) : OnlyWrites l s t := by
  obtain ⟨u, h1, h2⟩ := andThen_eq_next.1 h
  exact (hr u h1).trans (hk u h2)

theorem onlyWrites_whenLive {l : List Reg} {s t : State} {k : State → Result}
    (hk : k s = .next t → OnlyWrites l s t) (h : whenLive s k = .next t) : OnlyWrites l s t := by
  rcases whenLive_eq_next.1 h with ⟨-, h⟩ | ⟨-, rfl⟩
  · exact hk h
  · exact .refl _ _

theorem onlyWrites_raise {s t : State} {f : Raised} (h : raise f s = .next t) : OnlyWrites [.fault] s t := by
  rw [raise_eq_next h]
  constructor <;> simp

theorem onlyWrites_inPhase {l : List Reg} {s t : State} {p : Phase} {req : HostReq} {k : State → Result}
    (hl : .fault ∈ l) (hk : k s = .next t → OnlyWrites l s t) (h : inPhase p req s k = .next t) : OnlyWrites l s t := by
  unfold inPhase at h
  split at h
  · exact hk h
  · exact (onlyWrites_raise h).mono (by simpa using hl)

/-- The events of whole frames: `DC` ends high, `CS` released, the other lines as they were. -/
def IsFrame (es : List Event) : Prop := ∀ s : State, s.emitAll es = s.afterFrames es

theorem isFrame_cmdFrame (b : Byte) : IsFrame (cmdFrame b) := emitAll_cmdFrame b

theorem isFrame_dataFrame (b : Byte) : IsFrame (dataFrame b) := emitAll_dataFrame b

theorem isFrame_blockFrame (bs : List Byte) : IsFrame (blockFrame bs) := emitAll_blockFrame bs

theorem onlyWrites_sendFrame {s t : State} {es : List Event} (he : IsFrame es) (h : sendFrame es s = .next t) :
    OnlyWrites [.dcLine, .trace] s t := by
  obtain ⟨-, -, hc, rfl⟩ := sendFrame_eq_next h
  rw [he]
  constructor <;> simp [State.afterFrames, hc]

theorem onlyWrites_sendData {bs : List Byte} {s t : State} (h : sendData bs s = .next t) :
    OnlyWrites [.dcLine, .trace] s t := by
  induction bs generalizing s with
  | nil => cases h; exact .refl _ _
  | cons b bs ih =>
    exact onlyWrites_andThen (fun _ => onlyWrites_sendFrame (isFrame_dataFrame b)) (fun _ => ih) h

theorem onlyWrites_sendCmdArg {s t : State} {op a : Byte} (h : sendCmdArg op a s = .next t) :
    OnlyWrites [.dcLine, .trace] s t :=
  onlyWrites_andThen (fun _ => onlyWrites_sendFrame (isFrame_cmdFrame op))
    (fun _ => onlyWrites_sendFrame (isFrame_dataFrame a)) h

theorem onlyWrites_sendAddress {s t : State} {op : Byte} {a : Addr4} (h : sendAddress op a s = .next t) :
    OnlyWrites [.addressScratch, .dcLine, .trace] s t := by
  have h0 : OnlyWrites [.addressScratch, .dcLine, .trace] s { s with addr := a } := by constructor <;> simp
  exact h0.trans (onlyWrites_andThen (s := { s with addr := a })
    (fun _ h => (onlyWrites_sendFrame (isFrame_cmdFrame op) h).mono (by simp))
    (fun _ h => (onlyWrites_sendFrame (isFrame_blockFrame _) h).mono (by simp)) h)

theorem onlyWrites_fbWrite {s t : State} {a : Nat} {bs : List Byte} (h : fbWrite a bs s = .next t) :
    OnlyWrites [.buffer] s t := by
  obtain ⟨m, -, -, rfl⟩ := fbWrite_eq_next h
  constructor <;> simp

theorem onlyWrites_loadHeader (opc : Byte) (argn : BitVec 7) (d : Bool) (s : State) :
    OnlyWrites [.recordScratch] s (loadHeader opc argn d s) := by
  constructor <;> simp [loadHeader]

theorem onlyWrites_loadScratch (opc : Byte) (args : List Byte) (dly : Option Byte) (s : State) :
    OnlyWrites [.recordScratch] s (loadScratch opc args dly s) := by
  constructor <;> simp [loadScratch]

theorem onlyWrites_runRecord {s t : State} {opc : Byte} {args : List Byte} {dly : Option Byte}
    (h : runRecord opc args dly s = .next t) : OnlyWrites [.tp, .recordScratch, .fault, .dcLine, .trace] s t := by
  unfold runRecord at h
  split at h
  · exact (onlyWrites_raise h).mono (by simp)
  · split at h
    · exact ((onlyWrites_loadHeader _ _ _ s).mono (by simp)).trans ((onlyWrites_raise h).mono (by simp))
    · refine ((onlyWrites_loadScratch opc args dly s).mono (by simp)).trans (onlyWrites_andThen
        (fun _ h => (onlyWrites_sendFrame (isFrame_cmdFrame opc) h).mono (by simp)) (fun u h => ?_) h)
      refine onlyWrites_andThen (fun _ h => (onlyWrites_sendData h).mono (by simp)) (fun v h => ?_) h
      cases h
      cases dly <;> constructor <;> simp [recordWait, csStep, rstStep, blStep]

theorem onlyWrites_raiseCutOff {s t : State} {bs : List Byte} (h : raiseCutOff bs s = .next t) :
    OnlyWrites [.tp, .recordScratch, .fault, .dcLine, .trace] s t := by
  unfold raiseCutOff at h
  split at h
  · exact ((onlyWrites_loadHeader _ _ _ s).mono (by simp)).trans ((onlyWrites_raise h).mono (by simp))
  · exact (onlyWrites_raise h).mono (by simp)

theorem onlyWrites_recordAtTp {s t : State} (h : recordAtTp s = .next t) :
    OnlyWrites [.tp, .recordScratch, .fault, .dcLine, .trace] s t := by
  unfold recordAtTp execTblRec execTblRecD at h
  split at h
  · exact onlyWrites_whenLive (fun h => by exact onlyWrites_runRecord h) h
  · exact onlyWrites_whenLive (fun h => by exact onlyWrites_runRecord h) h
  · exact onlyWrites_raiseCutOff h

theorem onlyWrites_tableTurn {s t : State} (h : tableTurn s = .next t) :
    OnlyWrites [.tp, .recordScratch, .fault, .dcLine, .trace] s t := by
  unfold tableTurn at h
  refine onlyWrites_whenLive (fun h => ?_) h
  split at h
  · exact onlyWrites_recordAtTp h
  · cases h; exact .refl _ _

theorem onlyWrites_tableLoop {n : Nat} {s t : State} (h : tableLoop n s = .next t) :
    OnlyWrites [.tp, .recordScratch, .fault, .dcLine, .trace] s t := by
  induction n generalizing s with
  | zero => cases h; exact .refl _ _
  | succ n ih => exact onlyWrites_andThen (fun _ => onlyWrites_tableTurn) (fun _ => ih) h

/-- A pin request writes its own register, or `FAULT`. -/
theorem onlyWrites_supplyLine {l : List Reg} {s t : State} {req : HostReq} {supply : State → State}
    (hl : .fault ∈ l) (hs : OnlyWrites l s (supply s)) (h : supplyLine req supply s = .next t) : OnlyWrites l s t := by
  unfold supplyLine at h
  refine onlyWrites_whenLive (fun h => onlyWrites_inPhase hl (fun h => ?_) h) h
  cases h
  exact hs

end Sys2Proof.Machine
end

