-- ==== Sys2Proof/Laws/Inv.lean ====
section
/-! SUPPORT. The shared operations keep the invariant `State.Inv`, and every frame is an item of the trace grammar. -/

namespace Sys2Proof.Machine

theorem traceItem_cmdFrame (b : Byte) : TraceItem (cmdFrame b) := .cmd b

/-- A data frame is a block frame of one byte (`40_transport_framing.md` R83). -/
theorem traceItem_dataFrame (b : Byte) : TraceItem (dataFrame b) := .blk [b]

theorem traceItem_blockFrame (bs : List Byte) : TraceItem (blockFrame bs) := .blk bs

/-- One more item keeps the invariant. -/
theorem inv_emitAll {s : State} (h : s.Inv) {es : List Event} (he : TraceItem es) : (s.emitAll es).Inv := by
  rw [State.emitAll_eq]
  exact ⟨h.buffer, h.tp, h.sp, .snoc h.framed he, by simp [dcAfter, h.dcLine, List.foldl_append],
    by simp [csAfter, h.csLine, List.foldl_append], by simp [rstAfter, h.rstLine, List.foldl_append],
    by simp [blAfter, h.blLine, List.foldl_append]⟩

theorem inv_sendFrame {s t : State} {es : List Event} (he : TraceItem es) (h : s.Inv)
    (hs : sendFrame es s = .next t) : t.Inv := by
  obtain ⟨-, -, -, rfl⟩ := sendFrame_eq_next hs
  exact inv_emitAll h he

theorem inv_sendData {bs : List Byte} {s t : State} (h : s.Inv) (hs : sendData bs s = .next t) : t.Inv := by
  induction bs generalizing s with
  | nil => cases hs; exact h
  | cons b bs ih =>
    obtain ⟨u, h1, h2⟩ := andThen_eq_next.1 hs
    exact ih (inv_sendFrame (traceItem_dataFrame b) h h1) h2

theorem inv_raise {s t : State} {f : Raised} (h : s.Inv) (hs : raise f s = .next t) : t.Inv := by
  rw [raise_eq_next hs]
  exact ⟨h.1, h.2, h.3, h.4, h.5, h.6, h.7, h.8⟩

theorem inv_whenLive {s t : State} {k : State → Result} (h : s.Inv) (hk : k s = .next t → t.Inv)
    (hs : whenLive s k = .next t) : t.Inv := by
  rcases whenLive_eq_next.1 hs with ⟨-, h'⟩ | ⟨-, rfl⟩
  · exact hk h'
  · exact h

theorem inv_inPhase {s t : State} {p : Phase} {req : HostReq} {k : State → Result} (h : s.Inv)
    (hk : k s = .next t → t.Inv) (hs : inPhase p req s k = .next t) : t.Inv := by
  unfold inPhase at hs
  split at hs
  · exact hk hs
  · exact inv_raise h hs

theorem inv_loadHeader {s : State} (h : s.Inv) (opc : Byte) (argn : BitVec 7) (d : Bool) :
    (loadHeader opc argn d s).Inv := ⟨h.1, h.2, h.3, h.4, h.5, h.6, h.7, h.8⟩

theorem inv_loadScratch {s : State} (h : s.Inv) (opc : Byte) (args : List Byte) (dly : Option Byte) :
    (loadScratch opc args dly s).Inv := ⟨h.1, h.2, h.3, h.4, h.5, h.6, h.7, h.8⟩

theorem inv_runRecord {s t : State} {opc : Byte} {args : List Byte} {dly : Option Byte} (h : s.Inv)
    (hs : runRecord opc args dly s = .next t) : t.Inv := by
  unfold runRecord at hs
  split at hs
  · exact inv_raise h hs
  · split at hs
    · exact inv_raise (inv_loadHeader h _ _ _) hs
    · obtain ⟨u, h1, h2⟩ := andThen_eq_next.1 hs
      obtain ⟨v, h3, h4⟩ := andThen_eq_next.1 h2
      cases h4
      have hcfg : v.cfg = s.cfg := (onlyWrites_sendData h3).cfg.trans (onlyWrites_sendFrame (isFrame_cmdFrame opc) h1).cfg
      have hv : v.Inv := inv_sendData (inv_sendFrame (traceItem_cmdFrame opc) (inv_loadScratch h _ _ _) h1) h3
      have hw : (v.emitAll (recordWait dly)).Inv := by
        cases dly with
        | none => exact hv
        | some x => exact inv_emitAll hv (.wait _)
      exact ⟨hw.1, by simp [hcfg]; omega, hw.3, hw.4, hw.5, hw.6, hw.7, hw.8⟩

theorem inv_recordAtTp {s t : State} (h : s.Inv) (hs : recordAtTp s = .next t) : t.Inv := by
  unfold recordAtTp execTblRec execTblRecD at hs
  split at hs
  · exact inv_whenLive h (fun hs => by exact inv_runRecord h hs) hs
  · exact inv_whenLive h (fun hs => by exact inv_runRecord h hs) hs
  · unfold raiseCutOff at hs
    split at hs
    · exact inv_raise (inv_loadHeader h _ _ _) hs
    · exact inv_raise h hs

theorem inv_tableTurn {s t : State} (h : s.Inv) (hs : tableTurn s = .next t) : t.Inv := by
  unfold tableTurn at hs
  refine inv_whenLive h (fun hs => ?_) hs
  split at hs
  · exact inv_recordAtTp h hs
  · cases hs; exact h

theorem inv_tableLoop {n : Nat} {s t : State} (h : s.Inv) (hs : tableLoop n s = .next t) : t.Inv := by
  induction n generalizing s with
  | zero => cases hs; exact h
  | succ n ih =>
    obtain ⟨u, h1, h2⟩ := andThen_eq_next.1 hs
    exact ih (inv_tableTurn h h1) h2

theorem inv_sendCmdArg {s t : State} {op a : Byte} (h : s.Inv) (hs : sendCmdArg op a s = .next t) : t.Inv := by
  obtain ⟨u, h1, h2⟩ := andThen_eq_next.1 hs
  exact inv_sendFrame (traceItem_dataFrame _) (inv_sendFrame (traceItem_cmdFrame _) h h1) h2

theorem inv_sendAddress {s t : State} {op : Byte} {a : Addr4} (h : s.Inv) (hs : sendAddress op a s = .next t) :
    t.Inv := by
  obtain ⟨u, h1, h2⟩ := andThen_eq_next.1 hs
  have h' : State.Inv { s with addr := a } := ⟨h.1, h.2, h.3, h.4, h.5, h.6, h.7, h.8⟩
  exact inv_sendFrame (traceItem_blockFrame _) (inv_sendFrame (traceItem_cmdFrame _) h' h1) h2

/-- A buffer write keeps the buffer canonical and inside `FBLEN`. -/
theorem inv_fbWrite {s t : State} {a : Nat} {bs : List Byte} (h : s.Inv) (hs : fbWrite a bs s = .next t) : t.Inv := by
  obtain ⟨m, hm, hle, rfl⟩ := fbWrite_eq_next hs
  refine ⟨fun m' hm' => ?_, h.2, h.3, h.4, h.5, h.6, h.7, h.8⟩
  cases hm'
  obtain ⟨hw, hb⟩ := h.buffer m hm
  refine ⟨Memory.wf_writeBytes hw _ _, fun c hc => ?_⟩
  rcases Memory.mem_writeBytes hc with ⟨-, h1⟩ | h1
  · show c.1 < s.cfg.fblen
    omega
  · exact hb c h1

/-- The empty memory that allocation leaves is canonical. -/
theorem Memory.wf_nil : Memory.wf [] = true := rfl

end Sys2Proof.Machine
end

