-- ==== Sys2Proof/Laws/Agenda.lean ====
section
/-! SUPPORT. No shared operation looks at the agenda or writes it: with another agenda it does the same. -/

namespace Sys2Proof.Machine

/-- The state with another agenda. -/
def State.withAgenda (a : List Item) (s : State) : State := { s with agenda := a }

/-- The result with another agenda in its next state. -/
def resultWithAgenda (a : List Item) : Result → Result
  | .next t => .next (t.withAgenda a)
  | .fault f => .fault f
  | .refused q => .refused q

/-- The operation does the same under every agenda. -/
def IgnoresAgenda (k : State → Result) : Prop := ∀ a s, k (State.withAgenda a s) = resultWithAgenda a (k s)

theorem emitAll_withAgenda (a : List Item) (s : State) (es : List Event) :
    (s.withAgenda a).emitAll es = (s.emitAll es).withAgenda a := by
  simp only [State.emitAll_eq, State.withAgenda]

theorem ignoresAgenda_next {g : State → State} (h : ∀ a s, g (State.withAgenda a s) = (g s).withAgenda a) :
    IgnoresAgenda fun s => .next (g s) := by
  intro a s
  simp only [h, resultWithAgenda]

theorem ignoresAgenda_andThen {f k : State → Result} (hf : IgnoresAgenda f) (hk : IgnoresAgenda k) :
    IgnoresAgenda fun s => andThen (f s) k := by
  intro a s
  dsimp only
  rw [hf]
  cases f s <;> simp [resultWithAgenda, hk _ _]

theorem ignoresAgenda_ite {c : State → Prop} [DecidablePred c] {f k : State → Result}
    (hc : ∀ a s, c (State.withAgenda a s) ↔ c s) (hf : IgnoresAgenda f) (hk : IgnoresAgenda k) :
    IgnoresAgenda fun s => if c s then f s else k s := by
  intro a s
  simp only [hc]
  split
  · exact hf a s
  · exact hk a s

theorem ignoresAgenda_raise {f : State → Raised} (hf : ∀ a s, f (State.withAgenda a s) = f s) :
    IgnoresAgenda fun s => raise (f s) s := by
  intro a s
  simp only [hf, raise]
  rw [show (s.withAgenda a).fault = s.fault from rfl]
  cases s.fault <;> rfl

theorem ignoresAgenda_whenLive {k : State → Result} (hk : IgnoresAgenda k) : IgnoresAgenda fun s => whenLive s k := by
  intro a s
  simp only [whenLive]
  rw [show (s.withAgenda a).fault = s.fault from rfl]
  cases s.fault with
  | none => exact hk a s
  | some f => rfl

theorem ignoresAgenda_inPhase {p : Phase} {req : HostReq} {k : State → Result} (hk : IgnoresAgenda k) :
    IgnoresAgenda fun s => inPhase p req s k := by
  unfold inPhase
  exact ignoresAgenda_ite (fun _ _ => Iff.rfl) hk (ignoresAgenda_raise fun _ _ => rfl)

theorem ignoresAgenda_sendFrame (es : List Event) : IgnoresAgenda (sendFrame es) := by
  unfold sendFrame
  exact ignoresAgenda_ite (fun _ _ => Iff.rfl) (fun _ _ => rfl) (ignoresAgenda_ite (fun _ _ => Iff.rfl)
    (fun _ _ => rfl) (ignoresAgenda_next fun a s => emitAll_withAgenda a s es))

theorem ignoresAgenda_sendData (bs : List Byte) : IgnoresAgenda (sendData bs) := by
  induction bs with
  | nil => exact fun _ _ => rfl
  | cons b bs ih => exact ignoresAgenda_andThen (ignoresAgenda_sendFrame _) ih

theorem ignoresAgenda_sendCmdArg (op arg : Byte) : IgnoresAgenda (sendCmdArg op arg) :=
  ignoresAgenda_andThen (ignoresAgenda_sendFrame _) (ignoresAgenda_sendFrame _)

theorem ignoresAgenda_sendAddress (op : Byte) (ad : Addr4) : IgnoresAgenda (sendAddress op ad) :=
  ignoresAgenda_andThen (f := fun s => sendFrame (cmdFrame op) { s with addr := ad })
    (fun a s => ignoresAgenda_sendFrame _ a { s with addr := ad }) (ignoresAgenda_sendFrame _)

theorem ignoresAgenda_runRecord (opc : Byte) (args : List Byte) (dly : Option Byte) :
    IgnoresAgenda (runRecord opc args dly) := by
  unfold runRecord
  refine ignoresAgenda_ite (fun _ _ => Iff.rfl) (ignoresAgenda_raise fun _ _ => rfl)
    (ignoresAgenda_ite (fun _ _ => Iff.rfl) ?_ ?_)
  · intro a s
    exact ignoresAgenda_raise (f := fun _ => .fTable s.tp) (fun _ _ => rfl) a
      (loadHeader opc (BitVec.ofNat 7 args.length) dly.isSome s)
  · intro a s
    show andThen (sendFrame (cmdFrame opc) ((loadScratch opc args dly s).withAgenda a)) _ =
      resultWithAgenda a (andThen (sendFrame (cmdFrame opc) (loadScratch opc args dly s)) _)
    rw [ignoresAgenda_sendFrame]
    cases sendFrame (cmdFrame opc) (loadScratch opc args dly s) with
    | next u =>
      simp only [resultWithAgenda, andThen_next]
      rw [ignoresAgenda_sendData]
      cases sendData args u with
      | next v => simp only [resultWithAgenda, andThen_next, emitAll_withAgenda]; rfl
      | _ => rfl
    | _ => rfl

theorem ignoresAgenda_raiseCutOff (bs : List Byte) : IgnoresAgenda (raiseCutOff bs) := by
  intro a s
  unfold raiseCutOff
  split
  · exact ignoresAgenda_raise (f := fun _ => .fTable s.tp) (fun _ _ => rfl) a (loadHeader _ _ _ s)
  · exact ignoresAgenda_raise (f := fun _ => .fTable s.tp) (fun _ _ => rfl) a s

theorem ignoresAgenda_recordAtTp : IgnoresAgenda recordAtTp := by
  intro a s
  unfold recordAtTp
  rw [show (s.withAgenda a).cfg = s.cfg from rfl, show (s.withAgenda a).tp = s.tp from rfl]
  split
  · exact ignoresAgenda_whenLive (ignoresAgenda_runRecord _ _ _) a s
  · exact ignoresAgenda_whenLive (ignoresAgenda_runRecord _ _ _) a s
  · exact ignoresAgenda_raiseCutOff _ a s

theorem ignoresAgenda_tableTurn : IgnoresAgenda tableTurn :=
  ignoresAgenda_whenLive (ignoresAgenda_ite (fun _ _ => Iff.rfl) ignoresAgenda_recordAtTp fun _ _ => rfl)

theorem ignoresAgenda_tableLoop (n : Nat) : IgnoresAgenda (tableLoop n) := by
  induction n with
  | zero => exact fun _ _ => rfl
  | succ n ih => exact ignoresAgenda_andThen ignoresAgenda_tableTurn ih

end Sys2Proof.Machine
end

