-- ==== Sys2Proof/Tests/Slice0.lean ====
section
/-! SUPPORT. Own tests. Expected values come from the spec: `95_test_vectors.md` (V1 to V7, parts 2 and 3), `30_encoding.md`
and `opcode_table.json`. The theorems named `witness_…` show that the hypotheses of the statement of that name can be met. -/

namespace Sys2Proof.Tests

open Sys2Proof.Machine

/-! ## Small states -/

/-- The table of program P1 (`95_test_vectors.md`). -/
def p1Table : List Byte := [0x01, 0x80, 0x96, 0x11, 0x80, 0xFF, 0xB1, 0x02, 0xA0, 0x11, 0x29, 0x00]

/-- Its records. -/
def p1Records : List TableRecord :=
  [⟨0x01, [], some 0x96⟩, ⟨0x11, [], some 0xFF⟩, ⟨0xB1, [0xA0, 0x11], none⟩, ⟨0x29, [], none⟩]

/-- The configuration of program P2, with `SETTLE_MS` = 7. -/
def p2Config : Config :=
  { Config.smallest with
    width := 2, height := 2, format := .standard, colorBits := 16, colmodLe16 := 0x55, rotation := some 0
    invert := true, initTable := p1Table, settleMs := 7 }

/-- The configuration of program P4. -/
def p4Config : Config := { Config.smallest with width := 2, height := 2, colOffset := 2, rowOffset := 1 }

/-- Before `INITIALIZE`, with both frame lines supplied. -/
def lined (c : Config) : State := { State.resetWith c with dcPresent := true, csPresent := true }

/-- After `INITIALIZE`, with the given buffer. -/
def ready (c : Config) (m : Memory) : State := { lined c with phase := .ready, fb := some m }

/-- With a table that starts at `TP` = 0. -/
def atTable (t : List Byte) : State := lined { Config.smallest with initTable := t }

/-- The buffer of program P3 before its `UPDATE`: F8 00 07 E0 00 1F 11 AA, zero bytes unlisted. -/
def p3Buffer : Memory := [(0, 0xF8), (2, 0x07), (3, 0xE0), (5, 0x1F), (6, 0x11), (7, 0xAA)]

/-- The result is a next state with the property. -/
def nextIs (r : Result) (p : State → Bool) : Bool :=
  match r with
  | .next t => p t
  | .fault _ => false
  | .refused _ => false

/-- The result is the refusal. -/
def refusedAs (r : Result) (q : Refusal) : Bool :=
  match r with
  | .next _ => false
  | .fault _ => false
  | .refused q' => decide (q' = q)

/-- The result is the fault. -/
def faultedAs (r : Result) (f : Fault) : Bool :=
  match r with
  | .next _ => false
  | .fault f' => decide (f' = f)
  | .refused _ => false

/-! ## Well-formedness refuses what has no encoding (R62) -/

theorem test_wf_refuses_128_arguments :
    (Instr.tblRec 0x29 (List.replicate 128 0)).wf = false ∧ (Instr.tblRecD 0x29 (List.replicate 128 0) 0).wf = false := by
  simp [Instr.wf]

theorem test_wf_admits_127_arguments :
    (Instr.tblRec 0x29 (List.replicate 127 0)).wf = true ∧ (Instr.tblRecD 0x29 (List.replicate 127 0) 0).wf = true := by
  simp [Instr.wf]

theorem test_wf_admits_every_other_operand :
    (Instr.blkw []).wf = true ∧ (Instr.setpixel (-1) 70000 ⟨0, 0, 0⟩).wf = true := by decide

/-- R8: the corners of `ConfigWF` in `95_test_vectors.md` section 2.4, and an index above 7. -/
theorem test_configWF_corners :
    configWF { Config.smallest with colOffset := 65535, rowOffset := 65535 } = true ∧
    configWF { Config.smallest with colOffset := 0, width := 65536 } = true ∧
    configWF { Config.smallest with colOffset := 1, width := 65536 } = false ∧
    configWF { Config.smallest with width := 0 } = false ∧
    configWF { Config.smallest with height := 0 } = false ∧
    configWF { Config.smallest with rowOffset := 65535, height := 2 } = false ∧
    configWF { Config.smallest with rotation := some 7 } = true ∧
    configWF { Config.smallest with rotation := some 8 } = false := by decide

/-! ## Decoding: words written out from the spec -/

/-- R67: the eight request codes. -/
theorem test_decode_requests :
    decode (.request 0b0000#4 [] []) = .ok .setrstpin ∧ decode (.request 0b0001#4 [] []) = .ok .setdcpin ∧
    decode (.request 0b0010#4 [] []) = .ok .setblpin ∧ decode (.request 0b0011#4 [] []) = .ok .setcspin ∧
    decode (.request 0b0100#4 [] []) = .ok .initialise ∧ decode (.request 0b0101#4 [] []) = .ok .update ∧
    decode (.request 0b0110#4 [5, -2] [0xFF, 0x00, 0x80]) = .ok (.setpixel 5 (-2) ⟨0xFF, 0x00, 0x80⟩) ∧
    decode (.request 0b0111#4 [] []) = .ok .getbuflen := by decide

/-- R61, R62 and the rows of section 2.2: `HDR` = 00, 80, 01, 81, 02. -/
theorem test_decode_records :
    decode (.record [0x29, 0b00000000#8]) = .ok (.tblRec 0x29 []) ∧
    decode (.record [0x11, 0b10000000#8, 0x78]) = .ok (.tblRecD 0x11 [] 0x78) ∧
    decode (.record [0x3A, 0b00000001#8, 0x55]) = .ok (.tblRec 0x3A [0x55]) ∧
    decode (.record [0x36, 0b10000001#8, 0x48, 0x0A]) = .ok (.tblRecD 0x36 [0x48] 0x0A) ∧
    decode (.record [0xB1, 0b00000010#8, 0xA0, 0x11]) = .ok (.tblRec 0xB1 [0xA0, 0x11]) := by decide

set_option maxRecDepth 4096 in
/-- Section 2.2: `E0 FF a0 … a126 00`, 130 bytes. -/
theorem test_decode_longest_record :
    decode (.record ([0xE0, 0b11111111#8] ++ List.replicate 127 0x5A ++ [0x00])) =
      .ok (.tblRecD 0xE0 (List.replicate 127 0x5A) 0x00) := by rfl

/-- R68: bit 8 is the `DC` level. -/
theorem test_decode_frames :
    decode (.frame .command [0b000101100#9]) = .ok (.cmdw 0x2C) ∧
    decode (.frame .data [0b110100101#9]) = .ok (.datw 0xA5) ∧
    decode (.frame .block [0b100000001#9, 0b100000010#9, 0b100000011#9]) = .ok (.blkw [1, 2, 3]) ∧
    decode (.frame .block []) = .ok (.blkw []) := by decide

/-- The match words of the wire command rows. -/
theorem test_decode_commands :
    decode (.command 0b000101010#9) = .ok .caset ∧ decode (.command 0b000101011#9) = .ok .raset ∧
    decode (.command 0b000101100#9) = .ok .ramwr ∧ decode (.command 0b000111010#9) = .ok .colmod ∧
    decode (.command 0b000110110#9) = .ok .madctl ∧ decode (.command 0b000100001#9) = .ok .invon := by decide

/-- The rows without bits carry the model's numbers (log 17). -/
theorem test_decode_internal_and_functions :
    decode (.internal 0) = .ok .runtable ∧ decode (.internal 1) = .ok .resetpulse ∧
    decode (.internal 2) = .ok .settle ∧ decode (.internal 3) = .ok .allocateBacklight ∧
    decode (.internal 4) = .ok .window ∧ decode (.internal 5) = .ok .stream ∧
    decode (.function 0 [0x12, 0x34, 0x56]) = .ok (.enc332 ⟨0x12, 0x34, 0x56⟩) ∧
    decode (.function 1 [0x12, 0x34, 0x56]) = .ok (.enc565 ⟨0x12, 0x34, 0x56⟩) ∧
    decode (.function 2 [0x11, 0xAA]) = .ok (.dec565 0x11AA) ∧
    decode (.function 3 [0xBB]) = .ok (.expand332 0xBB) ∧ decode (.function 4 [0xBB]) = .ok (.req565 0xBB) := by decide

/-- R67, R66 (d), R68: what is no instruction is refused by name. -/
theorem test_decode_rejects :
    decode (.request 0x8 [] []) = .error (.reservedRequest 0x8) ∧
    decode (.request 0xF [] []) = .error (.reservedRequest 0xF) ∧
    decode (.request 0x6 [] []) = .error .badOperands ∧
    decode (.record [0x29]) = .error .recordCutOff ∧ decode (.record [0x29, 0x80]) = .error .recordCutOff ∧
    decode (.frame .command [0b100101100#9]) = .error .badFrame ∧
    decode (.command 0b000000000#9) = .error (.unknownCommand 0) := by decide

/-- `opcode_table.json`'s numbering: request codes, command match values, and a record header with zero operands. -/
theorem test_decodeTableWord :
    decodeTableWord 8 0x4 = some .initialise ∧ decodeTableWord 8 0x8 = none ∧
    decodeTableWord 16 0x02A = some .caset ∧ decodeTableWord 16 0x2900 = some (.tblRec 0x29 []) ∧
    decodeTableWord 16 0x2980 = some (.tblRecD 0x29 [] 0) ∧ decodeTableWord 16 0x2901 = some (.tblRec 0x29 [0]) := by
  decide

/-- R65 and the corners of section 2.2. -/
theorem test_tableWF_corners :
    tableWF [] = true ∧ tableWF [0x29] = false ∧ tableWF [0x29, 0x80] = false ∧
    tableWF [0x29, 0x00, 0x36, 0x01] = false ∧ tableWF [0x29, 0x00] = true ∧ tableWF p1Table = true := by decide

/-! ## One step each -/

/-- Section 2.2: `3A 01 55`, nine events, `TP` 0 to 3. -/
theorem test_rec_3A : nextIs (exec (.tblRec 0x3A [0x55]) (atTable [0x3A, 0x01, 0x55])) fun t =>
    t.trace == [.dc .low, .cs .asserted, .tx 0x3A, .dc .high, .cs .released,
      .dc .high, .cs .asserted, .tx 0x55, .cs .released] && t.tp == 3 := by decide

/-- Section 2.2: the second record of `29 00 36 01` does not fit. -/
theorem test_rec_cut_off : nextIs (exec (.tblRec 0x36 [0x00]) { atTable [0x29, 0x00, 0x36, 0x01] with tp := 2 }) fun t =>
    t.fault == some (.fTable 2) && t.trace == [] && t.tp == 2 := by decide

/-- Section 2.2: `11 80 FF`, the sentinel. -/
theorem test_recD_sentinel : nextIs (exec (.tblRecD 0x11 [] 0xFF) (atTable [0x11, 0x80, 0xFF])) fun t =>
    t.trace == [.dc .low, .cs .asserted, .tx 0x11, .dc .high, .cs .released, .wait 500] && t.tp == 3 := by decide

/-- Section 2.2: `11 80 FE`, 254 ms. -/
theorem test_recD_254 : nextIs (exec (.tblRecD 0x11 [] 0xFE) (atTable [0x11, 0x80, 0xFE])) fun t =>
    t.trace.getLast? == some (.wait 254) && t.scratch == ⟨0x11, 0, true, 0xFE⟩ := by decide

/-- Section 2.1. -/
theorem test_cmdw_FF : nextIs (exec (.cmdw 0xFF) (lined Config.smallest)) fun t =>
    t.trace == [.dc .low, .cs .asserted, .tx 0xFF, .dc .high, .cs .released] && t.dc == .driven .high := by decide

/-- R80. -/
theorem test_cmdw_without_line :
    refusedAs (exec (.cmdw 0xFF) { lined Config.smallest with csPresent := false }) .linesAbsent := by decide

/-- Section 2.1. -/
theorem test_datw_A5 : nextIs (exec (.datw 0xA5) (lined Config.smallest)) fun t =>
    t.trace == [.dc .high, .cs .asserted, .tx 0xA5, .cs .released] && t.cs == .released := by decide

/-- Section 2.1. -/
theorem test_blkw_three : nextIs (exec (.blkw [1, 2, 3]) (lined Config.smallest)) fun t =>
    t.trace == [.dc .high, .cs .asserted, .tx 1, .tx 2, .tx 3, .cs .released] := by decide

/-- Section 2.1: no byte. -/
theorem test_blkw_empty : nextIs (exec (.blkw []) (lined Config.smallest)) fun t =>
    t.trace == [.dc .high, .cs .asserted, .cs .released] := by decide

/-- R150. -/
theorem test_pins :
    nextIs (exec .setrstpin State.reset) (fun t => t.rstPresent && t.trace == []) ∧
    nextIs (exec .setdcpin State.reset) (fun t => t.dcPresent && t.trace == []) ∧
    nextIs (exec .setblpin State.reset) (fun t => t.blPresent && t.trace == []) ∧
    nextIs (exec .setcspin State.reset) (fun t => t.csPresent && t.trace == []) := by decide

/-- Section 2.5: `SETBLPIN` after `INITIALIZE`. -/
theorem test_setblpin_when_ready : nextIs (exec .setblpin (ready p2Config [])) fun t =>
    t.fault == some (.fPhase .setblpin .ready) && t.blPresent == false := by decide

/-- Program P2 without the reset line and the backlight: 54 events, `Ready`. -/
theorem test_initialize_p2_variant : nextIs (exec .initialise (lined p2Config)) fun t =>
    t.trace.length == 54 && t.phase == .ready && t.tp == 12 && t.fb == some [] && t.rst == .undriven := by decide

/-- Program P5: the table is malformed at index 3, seven events. -/
theorem test_initialize_p5 :
    nextIs (exec .initialise (lined { p2Config with initTable := [0x11, 0x80, 0x78, 0x36, 0x02, 0x48] })) fun t =>
      t.trace == [.wait 7, .dc .low, .cs .asserted, .tx 0x11, .dc .high, .cs .released, .wait 120] &&
        t.fault == some (.fTable 3) && t.phase == .runningInitTable && t.tp == 3 && t.fb == none := by decide

/-- Program P3: the forty events of its `UPDATE`. -/
theorem test_update_p3 : nextIs (exec .update (ready p2Config p3Buffer)) fun t =>
    t.trace == [.dc .low, .cs .asserted, .tx 0x2A, .dc .high, .cs .released,
      .dc .high, .cs .asserted, .tx 0x00, .tx 0x00, .tx 0x00, .tx 0x01, .cs .released,
      .dc .low, .cs .asserted, .tx 0x2B, .dc .high, .cs .released,
      .dc .high, .cs .asserted, .tx 0x00, .tx 0x00, .tx 0x00, .tx 0x01, .cs .released,
      .dc .low, .cs .asserted, .tx 0x2C, .dc .high, .cs .released,
      .dc .high, .cs .asserted, .tx 0xF8, .tx 0x00, .tx 0x07, .tx 0xE0, .tx 0x00, .tx 0x1F, .tx 0x11, .tx 0xAA,
      .cs .released] && t.sp == 8 := by decide

/-- Program P4: its payload and its column window. -/
theorem test_update_p4 : nextIs (exec .update (ready p4Config [(0, 0xFF), (1, 0xBB), (2, 0x92)])) fun t =>
    t.trace.drop 5 == [.dc .high, .cs .asserted, .tx 0x00, .tx 0x02, .tx 0x00, .tx 0x03, .cs .released] ++
        t.trace.drop 12 &&
      t.trace.drop 29 == [.dc .high, .cs .asserted, .tx 0xE7, .tx 0x18, .tx 0xA6, .tx 0x18, .tx 0x84, .tx 0x10,
        .tx 0x00, .tx 0x00, .cs .released] && t.trace.length == 40 := by decide

/-- Section 2.3: 2 by 2 standard, pixel (1, 1). -/
theorem test_setpixel_standard : nextIs (exec (.setpixel 1 1 ⟨0x00, 0x00, 0xFF⟩) (ready p2Config [])) fun t =>
    t.fbRead 6 == some 0x00 && t.fbRead 7 == some 0x1F && t.fbRead 8 == none && t.trace == [] := by decide

/-- Section 2.3: `SETPIXEL(2, 0, c)` writes nothing. -/
theorem test_setpixel_off : nextIs (exec (.setpixel 2 0 ⟨0x12, 0x34, 0x56⟩) (ready p2Config p3Buffer)) fun t =>
    t.fault == some (.fPixel 2 0) && t.fb == some p3Buffer := by decide

/-- V1: 2 by 2 standard is 8; the answer also comes with a fault set (R120). -/
theorem test_getbuflen : nextIs (exec .getbuflen { lined p2Config with fault := some (.fTable 3) }) fun t =>
    t.returns == [8] := by decide

/-- V6: columns 0 to 319. -/
theorem test_caset_v6 : nextIs (exec .caset { lined Config.smallest with xs := 0, xe := 319 }) fun t =>
    t.trace.drop 5 == [.dc .high, .cs .asserted, .tx 0x00, .tx 0x00, .tx 0x01, .tx 0x3F, .cs .released] := by decide

/-- V6: rows 0 to 479. -/
theorem test_raset_v6 : nextIs (exec .raset { lined Config.smallest with ys := 0, ye := 479 }) fun t =>
    t.trace.drop 5 == [.dc .high, .cs .asserted, .tx 0x00, .tx 0x00, .tx 0x01, .tx 0xDF, .cs .released] := by decide

/-- R134. -/
theorem test_ramwr : nextIs (exec .ramwr (lined Config.smallest)) fun t =>
    t.trace == [.dc .low, .cs .asserted, .tx 0x2C, .dc .high, .cs .released] := by decide

/-- Section 2.5: 16 bits and 17 bits. -/
theorem test_colmod_16_17 :
    nextIs (exec .colmod (lined { p2Config with colmodGt16 := 0x66 })) (fun t => t.trace[7]? == some (.tx 0x55)) ∧
    nextIs (exec .colmod (lined { p2Config with colorBits := 17, colmodGt16 := 0x66 }))
      (fun t => t.trace[7]? == some (.tx 0x66)) := by decide

/-- V4: index 0 and index 6. -/
theorem test_madctl_0_6 :
    nextIs (exec .madctl (lined p2Config)) (fun t => t.trace[7]? == some (.tx 0x60)) ∧
    nextIs (exec .madctl (lined { p2Config with rotation := some 6, rot5 := 1, rot7 := 2 }))
      (fun t => t.trace[7]? == some (.tx 0x00)) := by decide

/-- Section 2.5: no rotation index. -/
theorem test_madctl_default : nextIs (exec .madctl (lined { p2Config with rotation := none, madctlDefault := 0x48 }))
    fun t => t.trace[7]? == some (.tx 0x48) := by decide

/-- Section 2.5: `INVERT` 1 and 0. -/
theorem test_invon :
    nextIs (exec .invon (lined p2Config)) (fun t => t.trace[2]? == some (.tx 0x21) && t.phase == .configured) ∧
    nextIs (exec .invon (lined { p2Config with invert := false })) (fun t => t.trace == [] && t.phase == .configured) := by
  decide

/-- Program P1: thirty events. -/
theorem test_runtable_p1 : nextIs (exec .runtable (lined p2Config)) fun t =>
    t.trace.length == 30 && t.tp == 12 && t.fault == none && t.trace == tableEvents p1Records := by decide

/-- Section 2.2: `29 00 36 01` emits one command and then `F_TABLE(2)`. -/
theorem test_runtable_cut_off : nextIs (exec .runtable (atTable [0x29, 0x00, 0x36, 0x01])) fun t =>
    t.trace == cmdFrame 0x29 && t.fault == some (.fTable 2) := by decide

/-- Section 2.5. -/
theorem test_resetpulse :
    nextIs (exec .resetpulse { lined p2Config with rstPresent := true })
      (fun t => t.trace == [.rst .high, .wait 1, .rst .low, .wait 10, .rst .high] && t.phase == .resetting) ∧
    nextIs (exec .resetpulse (lined p2Config)) (fun t => t.trace == [] && t.rst == .undriven) := by decide

/-- Section 2.5. -/
theorem test_settle : nextIs (exec .settle (lined p2Config)) fun t =>
    t.trace == [.wait 7] && t.phase == .runningInitTable := by decide

/-- Section 2.5, and the zero-filled buffer of R159. -/
theorem test_allocate_backlight : nextIs (exec .allocateBacklight { lined p2Config with blPresent := true }) fun t =>
    t.trace == [.bl .high] && t.fbRead 7 == some 0 && t.fbRead 8 == none && t.phase == .ready := by decide

/-- Section 2.4: CO = 35, W = 170, RO = 0, H = 320, and the largest ends. -/
theorem test_window :
    nextIs (exec .window (lined { Config.smallest with colOffset := 35, width := 170, height := 320 }))
      (fun t => t.xs == 35 && t.xe == 204 && t.ys == 0 && t.ye == 319) ∧
    nextIs (exec .window (lined { Config.smallest with colOffset := 65535, rowOffset := 65535 }))
      (fun t => t.xs == 65535 && t.xe == 65535 && t.ys == 65535 && t.ye == 65535) := by decide

/-- Section 2.4: the reduced buffer `[E0, 03]`, 2 by 1. -/
theorem test_stream_reduced :
    nextIs (exec .stream (ready { Config.smallest with width := 2 } [(0, 0xE0), (1, 0x03)])) fun t =>
      t.trace == [.dc .high, .cs .asserted, .tx 0xE0, .tx 0x00, .tx 0x00, .tx 0x18, .cs .released] && t.sp == 2 := by
  decide

/-- Section 2.3: (AB, CD, EF) and (1F, 1F, 3F). -/
theorem test_enc332 : enc332 ⟨0xAB, 0xCD, 0xEF⟩ = 0xBB ∧ enc332 ⟨0x1F, 0x1F, 0x3F⟩ = 0x00 := by decide

/-- Section 2.3: (12, 34, 56) and (1F, 1F, 3F). -/
theorem test_enc565 : enc565 ⟨0x12, 0x34, 0x56⟩ = 0x11AA ∧ enc565 ⟨0x1F, 0x1F, 0x3F⟩ = 0x18E7 := by decide

/-- V2. -/
theorem test_dec565 : nextIs (exec (.dec565 0x11AA) State.reset) fun t => t.codec == .channels 2 13 10 := by decide

/-- V3. -/
theorem test_expand332 : nextIs (exec (.expand332 0xBB) State.reset) fun t => t.codec == .color ⟨0xA0, 0xC0, 0xC0⟩ := by
  decide

/-- Section 2.3: BB, 49 and B7. -/
theorem test_req565 : req565 Config.smallest 0xBB = 0xA618 ∧ req565 Config.smallest 0x49 = 0x4208 ∧
    req565 Config.smallest 0xB7 = 0xA518 := by decide

/-- Section 2.5: from reset, `UPDATE` gives `F_PHASE` and `INITIALIZE` is `R_CONFIG`. -/
theorem test_requests_at_reset :
    nextIs (exec .update State.reset) (fun t => t.fault == some (.fPhase .update .uninitialized)) ∧
    refusedAs (exec .initialise State.reset) .rConfig := by decide

/-- A placed word is the next step's: a request and a record. -/
theorem test_step_runs_placed_word :
    nextIs (step (State.reset.withFetchWord 8 0x7)) (fun t => t.returns == [1]) ∧
    nextIs (step ((atTable []).withFetchWord 16 0x2980)) (fun t =>
      t.trace == cmdFrame 0x29 ++ [.wait 0] && t.tp == 3 && t.agenda == []) := by decide

/-- R184, R185. -/
theorem test_step_refuses :
    refusedAs (step { State.reset with agenda := [.issue (.request 0x8 [] [])] }) (.rReq 0x8) ∧
    refusedAs (step { State.reset with agenda := [.overlap (.request 0x5 [] [])] }) .rBusy := by decide

/-- R186: program P5's `INITIALIZE` does not end well, although it answers a next state; reset is a final state. -/
theorem test_final : State.reset.Final ∧
    nextIs (exec .initialise (lined { p2Config with initTable := [0x11, 0x80, 0x78, 0x36, 0x02, 0x48] }))
      (fun t => t.agenda == [] && t.fault != none) := ⟨⟨rfl, rfl⟩, by decide⟩

/-! ## Witnesses: the hypotheses of the statements can be met -/

theorem lined_canSend (c : Config) : (lined c).CanSend := ⟨rfl, rfl, rfl, rfl⟩

theorem ready_canSend (c : Config) (m : Memory) : (ready c m).CanSend := ⟨rfl, rfl, rfl, rfl⟩

theorem p1Records_wf : ∀ r ∈ p1Records, r.wf := by
  simp [p1Records, TableRecord.wf]

theorem witness_DecodeOfEncodeIsTheInstruction : (Instr.tblRecD 0xE0 (List.replicate 127 0) 0xFF).wf = true := by
  simp [Instr.wf]

theorem witness_DecodedRecordIsExactlyTheBytesRead :
    decodeRecord [0x36, 0x81, 0x48, 0x0A, 0x29] = .ok (.tblRecD 0x36 [0x48] 0x0A, [0x29]) := by decide

/-- Both checks at their boundary, and both kinds of record. -/
theorem witness_FetchReadsTheRecordByIndex :
    2 < [0x29, 0x00, 0x36].length ∧ decodeRecord ([0x29, 0x00, 0x36].drop 2) = .error .recordCutOff ∧
    decodeRecord ([0x29, 0x00, 0x36, 0x01].drop 2) = .error .recordCutOff ∧
    decodeRecord ([0x29, 0x00, 0x36, 0x7F].drop 0) = .ok (.tblRec 0x29 [], [0x36, 0x7F]) ∧
    decodeRecord ([0x29, 0x80, 0x36].drop 0) = .ok (.tblRecD 0x29 [] 0x36, []) := by decide

theorem witness_StepRunsTheDecodedInstruction :
    ({ State.reset with agenda := [.issue (.request 0x7 [] []), .blockReset] } : State).agenda =
      .issue (.request 0x7 [] []) :: [.blockReset] ∧ decode (.request 0x7 [] []) = .ok .getbuflen := by decide

/-- The three clauses: a record that reads, the end of the table, and a record that does not read. -/
theorem witness_TableTurnRunsTheRecordAtTp :
    decodeRecord ((atTable [0x29, 0x00]).cfg.initTable.drop 0) = .ok (.tblRec 0x29 [], []) ∧
    (atTable [0x29, 0x00]).cfg.tlen ≤ 2 ∧
    ((atTable [0x29]).fault = none ∧ 0 < (atTable [0x29]).cfg.tlen ∧
      decodeRecord ((atTable [0x29]).cfg.initTable.drop 0) = .error .recordCutOff) := by decide

theorem witness_PlacedWordIsWhatTheNextStepRuns :
    decodeTableWord 8 0x5 = some .update ∧ decodeTableWord 16 0x3601 = some (.tblRec 0x36 [0]) := by decide

theorem witness_ReservedAndOverlappedRequestsAreRefused : 8 ≤ (0x8#4).toNat ∧ 8 ≤ (0xF#4).toNat := by decide

theorem witness_BlockResetClearsAndIdleKeeps :
    ({ State.reset with agenda := [.blockReset] } : State).agenda = .blockReset :: [] ∧ State.reset.agenda = [] := by
  decide

/-- A state that can send is all that `CMDW`, `DATW` and four of the command steps ask for. -/
theorem witness_CommandWriteEmitsItsFrame : (lined p2Config).CanSend := lined_canSend _

theorem witness_DataWriteEmitsItsFrame : (lined p2Config).CanSend := lined_canSend _

theorem witness_CasetSendsTheColumnWindow : (ready p2Config p3Buffer).CanSend := ready_canSend _ _

theorem witness_RasetSendsTheRowWindow : (ready p2Config p3Buffer).CanSend := ready_canSend _ _

theorem witness_RamwrSendsOneCommandFrame : (ready p2Config p3Buffer).CanSend := ready_canSend _ _

theorem witness_ColmodSendsTheSelectedCode : (lined p2Config).CanSend := lined_canSend _

theorem witness_SettleWaitsOnce : (lined p2Config).fault = none := rfl

theorem witness_AllocateZeroFillsAndEnablesTheBacklight : (lined p2Config).fault = none := rfl

/-- The last pixel, in either format. -/
theorem witness_PayloadIsRowMajorHighByteFirst : 1 < p2Config.width ∧ 1 < p2Config.height ∧ p2Config.format = .standard ∧
    1 < p4Config.width ∧ 1 < p4Config.height ∧ p4Config.format = .reduced := by decide

theorem witness_TableIsWellFormedIffRecordsInARow : (∀ r ∈ p1Records, r.wf) ∧ p1Table = tableBytes p1Records :=
  ⟨p1Records_wf, by decide⟩

theorem witness_ResetMeetsTheInvariants :
    ∀ it ∈ [Item.issue (.request 0x4 [] []), .overlap (.request 0x5 [] []), .blockReset], it.fromHost = true := by decide

theorem witness_BlockWriteEmitsOneTransaction : (lined p2Config).CanSend ∧ ([0x7E] : List Byte) = [0x7E] :=
  ⟨lined_canSend _, rfl⟩

/-- The record ends exactly at the end of the table. -/
theorem witness_RecordSendsOpcodeThenArguments : (atTable [0x3A, 0x01, 0x55]).CanSend ∧
    (atTable [0x3A, 0x01, 0x55]).tp + (2 + [0x55].length) = (atTable [0x3A, 0x01, 0x55]).cfg.tlen :=
  ⟨lined_canSend _, rfl⟩

theorem witness_RecordWithDelayWaitsAfterItsBytes : (atTable [0x11, 0x80, 0xFF]).CanSend ∧
    (atTable [0x11, 0x80, 0xFF]).tp + (3 + 0) = (atTable [0x11, 0x80, 0xFF]).cfg.tlen := ⟨lined_canSend _, rfl⟩

/-- The record ends one byte past the table: both clauses. -/
theorem witness_RecordPastTheTableRaisesFTable : (atTable [0x36, 0x01]).fault = none ∧
    (atTable [0x36, 0x01]).cfg.tlen < (atTable [0x36, 0x01]).tp + (2 + 1) ∧
    (atTable [0x29, 0x80]).cfg.tlen < (atTable [0x29, 0x80]).tp + (3 + 0) := by decide

theorem witness_RuntableRunsEveryRecordInOrder : (lined p2Config).CanSend ∧ (∀ r ∈ p1Records, r.wf) ∧
    (lined p2Config).cfg.initTable = tableBytes p1Records := ⟨lined_canSend _, p1Records_wf, by decide⟩

/-- A record before the bad one, and none. -/
theorem witness_RuntableStopsAtTheRecordThatDoesNotFit : (atTable [0x29, 0x00, 0x36, 0x01]).CanSend ∧
    (atTable [0x29, 0x00, 0x36, 0x01]).cfg.initTable = tableBytes [⟨0x29, [], none⟩] ++ [0x36, 0x01] ∧
    decodeRecord [0x36, 0x01] = .error .recordCutOff ∧ (atTable [0x29]).cfg.initTable = tableBytes [] ++ [0x29] ∧
    decodeRecord [0x29] = .error .recordCutOff := ⟨lined_canSend _, by decide, by decide, by decide, by decide⟩

/-- The default `EXPAND332` is configured by no row. -/
theorem witness_Expand332KeepsTheStoredBits : State.reset.cfg.expandFill = [] := by decide

theorem witness_Req565RequantizesTheExpansion : State.reset.cfg.expandFill = [] := by decide

/-- The default expansion has the law, for all 256 bytes. -/
theorem witness_EveryLawfulExpansionIsAConfiguration : ∀ v : Byte, enc332 (expand332 Config.smallest v) = v := by
  decide

/-- The last pixel of a 2 by 2 panel, in either format. -/
theorem witness_SetpixelStoresExactlyItsPixel : (ready p2Config p3Buffer).fault = none ∧
    (ready p2Config p3Buffer).phase = .ready ∧ (ready p2Config p3Buffer).fb = some p3Buffer ∧
    Memory.wf p3Buffer = true ∧ 1 < (ready p2Config p3Buffer).cfg.width ∧ 1 < (ready p2Config p3Buffer).cfg.height ∧
    p2Config.format = .standard ∧ p4Config.format = .reduced := by decide

/-- Each of the four sides. -/
theorem witness_SetpixelOffThePanelRaisesFPixel : (ready p2Config []).fault = none ∧ (ready p2Config []).phase = .ready ∧
    (-1 : Int) < 0 ∧ ((ready p2Config []).cfg.width : Int) ≤ 2 ∧ ((ready p2Config []).cfg.height : Int) ≤ 2 := by decide

theorem witness_PixelsLieInsideAndApart : 1 < p2Config.width ∧ 0 < p2Config.height ∧ ((1, 0) : Nat × Nat) ≠ (1, 1) := by
  decide

/-- The largest window end of R8. -/
theorem witness_WindowHoldsTheInclusiveEnds :
    (lined { Config.smallest with colOffset := 65534, width := 2, rowOffset := 65535 }).fault = none ∧
    (65534 + 2 - 1 ≤ 65535) ∧ (65535 + 1 - 1 ≤ 65535) := by decide

theorem witness_StreamSendsTheFrameInOneBlock : (ready p2Config p3Buffer).CanSend ∧
    (ready p2Config p3Buffer).fb = some p3Buffer := ⟨ready_canSend _ _, rfl⟩

theorem witness_UpdateSendsOneWholeFrame : (ready p2Config p3Buffer).CanSend ∧ (ready p2Config p3Buffer).phase = .ready ∧
    1 ≤ p2Config.width ∧ 1 ≤ p2Config.height ∧ p2Config.colOffset + p2Config.width - 1 ≤ 65535 ∧
    p2Config.rowOffset + p2Config.height - 1 ≤ 65535 := by
  refine ⟨ready_canSend _ _, ?_⟩
  decide

theorem witness_SecondUpdateEmitsTheSameEvents : (ready p2Config p3Buffer).fault = none ∧
    (ready p2Config p3Buffer).phase = .ready ∧ ∃ t, exec .update (ready p2Config p3Buffer) = .next t :=
  ⟨rfl, rfl, _, rfl⟩

theorem witness_PinRequestsSetTheirPresenceBit : State.reset.fault = none ∧ State.reset.phase = .uninitialized := by decide

theorem witness_RequestsInTheWrongPhaseRaiseFPhase : (ready p2Config []).fault = none ∧
    (ready p2Config []).phase ≠ .uninitialized ∧ State.reset.fault = none ∧ State.reset.phase ≠ .ready := by decide

theorem witness_ResetpulseDrivesHighLowHigh : State.reset.fault = none ∧ State.reset.rstPresent = false ∧
    ({ State.reset with rstPresent := true } : State).rstPresent = true := by decide

/-- No index, the first and the last legal index, and the first illegal one. -/
theorem witness_MadctlSendsTheOrientationByte : (lined p2Config).CanSend ∧ Config.smallest.rotation = none ∧
    p2Config.rotation = some 0 ∧ ([0x60, 0, 0, 0, 0, 0, 0x00, 0x48] : List Byte)[7]? = some 0x48 ∧
    ({ p2Config with rotation := some 8 } : Config).rotation = some 8 ∧ 7 < 8 := by
  refine ⟨lined_canSend _, ?_⟩
  decide

theorem witness_InvonSendsOnlyWhenInverting : (lined p2Config).CanSend ∧ (lined p2Config).cfg.invert = true ∧
    State.reset.fault = none ∧ State.reset.cfg.invert = false := by
  refine ⟨lined_canSend _, ?_⟩
  decide

theorem witness_InitializeBringsThePanelUp : (lined p2Config).CanSend ∧ (lined p2Config).phase = .uninitialized ∧
    configWF p2Config = true ∧ (∀ r ∈ p1Records, r.wf) ∧ p2Config.initTable = tableBytes p1Records ∧
    madctlByte p2Config = some 0x60 := by
  refine ⟨lined_canSend _, rfl, by decide, p1Records_wf, by decide, by decide⟩

/-- Program P5. -/
theorem witness_InitializeStopsAtAMalformedTable :
    (lined { p2Config with initTable := [0x11, 0x80, 0x78, 0x36, 0x02, 0x48] }).CanSend ∧
    configWF { p2Config with initTable := [0x11, 0x80, 0x78, 0x36, 0x02, 0x48] } = true ∧
    [0x11, 0x80, 0x78, 0x36, 0x02, 0x48] = tableBytes [⟨0x11, [], some 0x78⟩] ++ [0x36, 0x02, 0x48] ∧
    decodeRecord [0x36, 0x02, 0x48] = .error .recordCutOff := by
  refine ⟨lined_canSend _, ?_⟩
  decide

/-- Each way to be refused: the corners of section 2.4 and a missing line. -/
theorem witness_InitializeIsRefusedWithoutConfigOrLines :
    State.reset.fault = none ∧ State.reset.phase = .uninitialized ∧ State.reset.dcPresent = false ∧
    State.reset.csPresent = false ∧ ({ Config.smallest with width := 0 } : Config).width = 0 ∧
    65535 < 1 + 65536 - 1 ∧ 7 < 8 := by decide

/-- Every kind of operation that gets as far as a frame; the records end exactly at the end of the table. -/
theorem witness_ReachesAFrame :
    ReachesAFrame (atTable [0x29, 0x00]) (.tblRec 0x29 []) ∧ ReachesAFrame (atTable [0x29, 0x80, 0x05]) (.tblRecD 0x29 [] 5) ∧
    ReachesAFrame State.reset (.cmdw 0) ∧ ReachesAFrame (lined p2Config) .madctl ∧ ReachesAFrame (lined p2Config) .invon ∧
    ReachesAFrame (lined p2Config) .runtable ∧ ReachesAFrame (ready p2Config []) .stream ∧
    ReachesAFrame (ready p2Config []) .update := by
  refine ⟨Nat.le_refl 2, Nat.le_refl 3, trivial, ⟨0x60, rfl⟩, rfl, ⟨⟨0x01, [], some 0x96⟩, p1Table.drop 3, ?_, by decide⟩, ⟨[], rfl⟩,
    rfl, by decide⟩
  simp [TableRecord.wf]

/-- Each clause: a line missing, a transaction open, no buffer, a window that does not fit. -/
theorem witness_OperationsStopWhereTheSpecGivesNoMeaning :
    refusedAs (exec (.datw 0) State.reset) .linesAbsent ∧
    faultedAs (exec .ramwr { lined p2Config with cs := .asserted }) .transactionOpen ∧
    faultedAs (exec .initialise { lined p2Config with cs := .asserted }) .transactionOpen ∧
    faultedAs (exec .initialise { lined { p2Config with initTable := [] } with cs := .asserted }) .transactionOpen ∧
    faultedAs (exec .stream (lined p2Config)) .bufferUnallocated ∧
    faultedAs (exec .update { lined p2Config with phase := .ready }) .bufferUnallocated ∧
    refusedAs (exec .update (ready { Config.smallest with colOffset := 1, width := 65536 } [])) .rConfig ∧
    faultedAs (exec (.setpixel 1 1 ⟨0, 0, 0⟩) { lined p2Config with phase := .ready }) .bufferUnallocated ∧
    refusedAs (exec .window (lined { Config.smallest with colOffset := 1, width := 65536 })) .rConfig := by decide

/-- A faulted state with a request still to come and no reset of the block. -/
theorem witness_NothingRunsAfterAFault :
    ({ State.reset with fault := some (.fTable 3), agenda := [.issue (.request 0x5 [] [])] } : State).fault =
      some (.fTable 3) ∧
    Item.blockReset ∉ ({ State.reset with agenda := [.issue (.request 0x5 [] [])] } : State).agenda := by decide

theorem witness_EachRegisterIsWrittenOnlyByItsOperation : ∃ t, exec (.cmdw 0x2C) (lined p2Config) = .next t := ⟨_, rfl⟩

/-- `INITIALIZE` in a run that moves the phase. -/
theorem witness_OnlyInitializeMovesThePhase : decode (.request 0x4 [] []) = .ok .initialise ∧
    nextIs (exec .initialise (lined p2Config)) (fun t => t.phase == .ready && t.fault == none) := by decide

/-- A trace with a command frame, a block of two bytes and a wait. -/
theorem witness_FramedTracesKeepTheBusDiscipline :
    Framed ([] ++ cmdFrame 0x2C ++ ([.dc .high, .cs .asserted] ++ [1, 2].map Event.tx ++ [.cs .released]) ++ [.wait 5]) :=
  .snoc (.snoc (.snoc .nil (.cmd _)) (.blk [1, 2])) (.wait 5)

/-- A state with a buffer, in which a step sends a whole frame. -/
theorem witness_EveryStepKeepsTheInvariant :
    State.Inv { ready p2Config p3Buffer with agenda := [.issue (.request 0x5 [] [])] } ∧
    nextIs (step { ready p2Config p3Buffer with agenda := [.issue (.request 0x5 [] [])] })
      (fun t => t.trace.length == 40) := by
  refine ⟨⟨fun m hm => ?_, by decide, by decide, .nil, rfl, rfl, rfl, rfl⟩, by decide⟩
  cases hm
  decide

/-- The state after reset is one; so is a ready block with a request to come. -/
theorem witness_HostRequestsKeepTheBlockAtRest :
    State.BetweenRequests { ready p2Config p3Buffer with agenda := [.issue (.request 0x5 [] [])] } := by
  refine ⟨by decide, rfl, .inl rfl, .inl rfl, .inl rfl, .inr (.inl rfl), by decide, fun _ => by decide⟩

theorem witness_RequestsAreTheirSmallSteps : (lined p2Config).fault = none ∧ (lined p2Config).agenda = [] ∧
    (lined p2Config).phase = .uninitialized ∧ configWF (lined p2Config).cfg = true ∧
    (ready p2Config p3Buffer).agenda = [] ∧ (ready p2Config p3Buffer).phase = .ready := by decide

theorem witness_RuntableIsItsTurns : (lined p2Config).CanSend ∧ (lined p2Config).agenda = [] ∧
    (∀ r ∈ p1Records, r.wf) ∧ (lined p2Config).cfg.initTable = tableBytes p1Records :=
  ⟨lined_canSend _, rfl, p1Records_wf, by decide⟩

end Sys2Proof.Tests
end

section
/-! Proofs for `10_state.md`, part 1: which registers each instruction writes, and what the interpreter and the framed
sends keep. -/

namespace Sys2Proof.Machine

/-! ## The frame of every instruction -/

theorem onlyWrites_execTblRec {s t : State} {opc : Byte} {args : List Byte} (h : execTblRec opc args s = .next t) :
    OnlyWrites [.tp, .recordScratch, .fault, .dcLine, .trace] s t :=
  onlyWrites_whenLive onlyWrites_runRecord h

theorem onlyWrites_execTblRecD {s t : State} {opc dly : Byte} {args : List Byte}
    (h : execTblRecD opc args dly s = .next t) : OnlyWrites [.tp, .recordScratch, .fault, .dcLine, .trace] s t :=
  onlyWrites_whenLive onlyWrites_runRecord h

/-- An operation that sends one frame, or nothing after a fault. -/
theorem onlyWrites_liveFrame {s t : State} {es : List Event} (he : IsFrame es)
    (h : whenLive s (sendFrame es) = .next t) : OnlyWrites [.dcLine, .trace] s t :=
  onlyWrites_whenLive (onlyWrites_sendFrame he) h

theorem onlyWrites_execWindow {s t : State} (h : execWindow s = .next t) : OnlyWrites [.window] s t := by
  refine onlyWrites_whenLive (fun h => ?_) h
  split at h
  · cases h
    constructor <;> simp
  · cases h

theorem onlyWrites_execCaset {s t : State} (h : execCaset s = .next t) :
    OnlyWrites [.addressScratch, .dcLine, .trace] s t := by
  refine onlyWrites_whenLive (fun h => ?_) h
  exact onlyWrites_sendAddress h

theorem onlyWrites_execRaset {s t : State} (h : execRaset s = .next t) :
    OnlyWrites [.addressScratch, .dcLine, .trace] s t := by
  refine onlyWrites_whenLive (fun h => ?_) h
  exact onlyWrites_sendAddress h

theorem onlyWrites_execRamwr {s t : State} (h : execRamwr s = .next t) : OnlyWrites [.dcLine, .trace] s t := by
  refine onlyWrites_whenLive (fun h => ?_) h
  exact onlyWrites_sendFrame (isFrame_cmdFrame _) h

theorem onlyWrites_execColmod {s t : State} (h : execColmod s = .next t) : OnlyWrites [.dcLine, .trace] s t := by
  refine onlyWrites_whenLive (fun h => ?_) h
  exact onlyWrites_sendCmdArg h

theorem onlyWrites_execMadctl {s t : State} (h : execMadctl s = .next t) : OnlyWrites [.dcLine, .trace] s t := by
  refine onlyWrites_whenLive (fun h => ?_) h
  split at h
  · exact onlyWrites_sendCmdArg h
  · cases h

/-- `PHASE` set to another value. -/
theorem onlyWrites_phase (s : State) (p : Phase) : OnlyWrites [.phase] s { s with phase := p } := by
  constructor <;> simp

/-- `SP` set to another value. -/
theorem onlyWrites_sp (s : State) (n : Nat) : OnlyWrites [.sp] s { s with sp := n } := by
  constructor <;> simp

/-- `TP` set to another value. -/
theorem onlyWrites_tp (s : State) (n : Nat) : OnlyWrites [.tp] s { s with tp := n } := by
  constructor <;> simp

theorem onlyWrites_execInvon {s t : State} (h : execInvon s = .next t) :
    OnlyWrites [.phase, .dcLine, .trace] s t := by
  refine onlyWrites_whenLive (onlyWrites_andThen (fun u h => ?_) (fun u h => ?_)) h
  · split at h
    · exact (onlyWrites_sendFrame (isFrame_cmdFrame _) h).mono (by simp)
    · cases h
      exact .refl _ _
  · cases h
    exact (onlyWrites_phase u _).mono (by simp)

theorem onlyWrites_execRuntable {s t : State} (h : execRuntable s = .next t) :
    OnlyWrites [.tp, .recordScratch, .fault, .dcLine, .trace] s t :=
  onlyWrites_whenLive (fun h => ((onlyWrites_tp s 0).mono (by simp)).trans (onlyWrites_tableLoop h)) h

theorem onlyWrites_execResetpulse {s t : State} (h : execResetpulse s = .next t) :
    OnlyWrites [.phase, .rstLine, .trace] s t := by
  refine onlyWrites_whenLive (fun h => ?_) h
  cases h
  cases s.rstPresent <;> constructor <;> simp [resetPulse, dcStep, csStep, blStep]

theorem onlyWrites_execSettle {s t : State} (h : execSettle s = .next t) : OnlyWrites [.phase, .trace] s t := by
  refine onlyWrites_whenLive (fun h => ?_) h
  cases h
  rw [State.emit_eq]
  constructor <;> simp [dcStep, csStep, rstStep, blStep]

theorem onlyWrites_execAllocateBacklight {s t : State} (h : execAllocateBacklight s = .next t) :
    OnlyWrites [.phase, .buffer, .blLine, .trace] s t := by
  refine onlyWrites_whenLive (fun h => ?_) h
  cases h
  cases s.blPresent <;> constructor <;> simp [dcStep, csStep, rstStep]

theorem onlyWrites_execStream {s t : State} (h : execStream s = .next t) :
    OnlyWrites [.sp, .dcLine, .trace] s t := by
  refine onlyWrites_whenLive (fun h => ?_) h
  split at h
  · cases h
  · refine ((onlyWrites_sp s 0).mono (by simp)).trans (onlyWrites_andThen (fun u h => ?_) (fun u h => ?_) h)
    · exact (onlyWrites_sendFrame (isFrame_blockFrame _) h).mono (by simp)
    · cases h
      exact (onlyWrites_sp u _).mono (by simp)

theorem onlyWrites_execUpdate {s t : State} (h : execUpdate s = .next t) : OnlyWrites (writes .update) s t := by
  refine onlyWrites_whenLive (onlyWrites_inPhase (by simp [writes]) fun h => ?_) h
  refine onlyWrites_andThen (fun _ h => (onlyWrites_execWindow h).mono (by simp [writes])) (fun _ h => ?_) h
  refine onlyWrites_andThen (fun _ h => (onlyWrites_execCaset h).mono (by simp [writes])) (fun _ h => ?_) h
  refine onlyWrites_andThen (fun _ h => (onlyWrites_execRaset h).mono (by simp [writes])) (fun _ h => ?_) h
  refine onlyWrites_andThen (fun _ h => (onlyWrites_execRamwr h).mono (by simp [writes])) (fun _ h => ?_) h
  exact (onlyWrites_execStream h).mono (by simp [writes])

/-- The steps of `INITIALIZE` after the table (R151). -/
def initAfterTable (s : State) : Result :=
  andThen (execColmod s) fun s =>
  andThen (execMadctl s) fun s =>
  andThen (execInvon s) execAllocateBacklight

theorem initSequence_eq (s : State) : initSequence s =
    andThen (execResetpulse s) fun s => andThen (execSettle s) fun s => andThen (execRuntable s) initAfterTable := rfl

theorem onlyWrites_initAfterTable {s t : State} (h : initAfterTable s = .next t) :
    OnlyWrites [.phase, .dcLine, .blLine, .buffer, .trace] s t := by
  refine onlyWrites_andThen (fun _ h => (onlyWrites_execColmod h).mono (by simp)) (fun _ h => ?_) h
  refine onlyWrites_andThen (fun _ h => (onlyWrites_execMadctl h).mono (by simp)) (fun _ h => ?_) h
  refine onlyWrites_andThen (fun _ h => (onlyWrites_execInvon h).mono (by simp)) (fun _ h => ?_) h
  exact (onlyWrites_execAllocateBacklight h).mono (by simp)

theorem onlyWrites_initSequence {s t : State} (h : initSequence s = .next t) :
    OnlyWrites (writes .initialise) s t := by
  rw [initSequence_eq] at h
  refine onlyWrites_andThen (fun _ h => (onlyWrites_execResetpulse h).mono (by simp [writes])) (fun _ h => ?_) h
  refine onlyWrites_andThen (fun _ h => (onlyWrites_execSettle h).mono (by simp [writes])) (fun _ h => ?_) h
  refine onlyWrites_andThen (fun _ h => (onlyWrites_execRuntable h).mono (by simp [writes])) (fun _ h => ?_) h
  exact (onlyWrites_initAfterTable h).mono (by simp [writes])

theorem onlyWrites_execInitialise {s t : State} (h : execInitialise s = .next t) :
    OnlyWrites (writes .initialise) s t := by
  refine onlyWrites_whenLive (onlyWrites_inPhase (by simp [writes]) fun h => ?_) h
  split at h
  · exact onlyWrites_initSequence h
  · cases h

theorem onlyWrites_execSetpixel {s t : State} {x y : Int} {color : Rgb} (h : execSetpixel x y color s = .next t) :
    OnlyWrites [.buffer, .fault] s t := by
  refine onlyWrites_whenLive (onlyWrites_inPhase (by simp) fun h => ?_) h
  split at h
  · exact (onlyWrites_fbWrite h).mono (by simp)
  · exact (onlyWrites_raise h).mono (by simp)

theorem onlyWrites_answer {s t : State} {out : CodecOut} (h : answer out s = .next t) : OnlyWrites [.codec] s t := by
  cases h
  constructor <;> simp

/-- Every instruction writes the registers its rule names, and no other. -/
theorem onlyWrites_exec {i : Instr} {s t : State} (h : exec i s = .next t) : OnlyWrites (writes i) s t := by
  cases i with
  | tblRec opc args => exact onlyWrites_execTblRec h
  | tblRecD opc args dly => exact onlyWrites_execTblRecD h
  | cmdw b => exact onlyWrites_liveFrame (isFrame_cmdFrame b) h
  | datw b => exact onlyWrites_liveFrame (isFrame_dataFrame b) h
  | blkw bs => exact onlyWrites_liveFrame (isFrame_blockFrame bs) h
  | setrstpin => exact onlyWrites_supplyLine (by simp [writes]) (by constructor <;> simp [writes]) h
  | setdcpin => exact onlyWrites_supplyLine (by simp [writes]) (by constructor <;> simp [writes]) h
  | setblpin => exact onlyWrites_supplyLine (by simp [writes]) (by constructor <;> simp [writes]) h
  | setcspin => exact onlyWrites_supplyLine (by simp [writes]) (by constructor <;> simp [writes]) h
  | initialise => exact onlyWrites_execInitialise h
  | update => exact onlyWrites_execUpdate h
  | setpixel x y color => exact onlyWrites_execSetpixel h
  | getbuflen =>
    cases h
    constructor <;> simp [writes]
  | caset => exact onlyWrites_execCaset h
  | raset => exact onlyWrites_execRaset h
  | ramwr => exact onlyWrites_execRamwr h
  | colmod => exact onlyWrites_execColmod h
  | madctl => exact onlyWrites_execMadctl h
  | invon => exact onlyWrites_execInvon h
  | runtable => exact onlyWrites_execRuntable h
  | resetpulse => exact onlyWrites_execResetpulse h
  | settle => exact onlyWrites_execSettle h
  | allocateBacklight => exact onlyWrites_execAllocateBacklight h
  | window => exact onlyWrites_execWindow h
  | stream => exact onlyWrites_execStream h
  | enc332 color => exact onlyWrites_answer h
  | enc565 color => exact onlyWrites_answer h
  | dec565 p => exact onlyWrites_answer h
  | expand332 v => exact onlyWrites_answer h
  | req565 v => exact onlyWrites_answer h

/-- Settles O53: the frame of each instruction is composed from the frames of the operations it runs. -/
theorem eachRegisterIsWrittenOnlyByItsOperation : Obligations.EachRegisterIsWrittenOnlyByItsOperation := by
  intro i s t h
  have w := onlyWrites_exec h
  exact ⟨w.cfg, w.agenda, w.cs, w.grows, w.rstPresent, w.dcPresent, w.blPresent, w.csPresent, w.phase, w.fault, w.tp,
    w.sp, w.window, w.scratch, w.addr, w.dc, w.rst, w.bl, w.fb, w.trace, w.returns, w.codec⟩

/-! ## Properties that operations keep -/

/-- The operation keeps the property wherever it answers a next state. -/
def Keeps (P : State → Prop) (k : State → Result) : Prop := ∀ ⦃s t : State⦄, P s → k s = .next t → P t

theorem keeps_andThen {P : State → Prop} {f k : State → Result} (hf : Keeps P f) (hk : Keeps P k) :
    Keeps P fun s => andThen (f s) k := by
  intro s t hs h
  obtain ⟨u, h1, h2⟩ := andThen_eq_next.1 h
  exact hk (hf hs h1) h2

theorem keeps_whenLive {P : State → Prop} {k : State → Result} (hk : Keeps P k) : Keeps P fun s => whenLive s k := by
  intro s t hs h
  rcases whenLive_eq_next.1 h with ⟨-, h⟩ | ⟨-, rfl⟩
  · exact hk hs h
  · exact hs

/-- The property survives everything the interpreter can do to the state: whole frames, the wait of a record, a new
scratch, another `TP`, `F_TABLE`. -/
structure KeptByTable (P : State → Prop) : Prop where
  frames : ∀ s es, P s → P (s.afterFrames es)
  wait : ∀ s dly, P s → P (s.emitAll (recordWait dly))
  scratch : ∀ s c, P s → P { s with scratch := c }
  tp : ∀ s n, P s → P { s with tp := n }
  fault : ∀ s n, P s → P { s with fault := some (.fTable n) }

section
variable {P : State → Prop}

theorem KeptByTable.sendFrame (hP : KeptByTable P) {es : List Event} (he : IsFrame es) : Keeps P (sendFrame es) := by
  intro s t hs h
  obtain ⟨-, -, -, rfl⟩ := sendFrame_eq_next h
  rw [he]
  exact hP.frames s es hs

theorem KeptByTable.sendData (hP : KeptByTable P) (bs : List Byte) : Keeps P (sendData bs) := by
  induction bs with
  | nil => intro s t hs h; cases h; exact hs
  | cons b bs ih => exact keeps_andThen (hP.sendFrame (isFrame_dataFrame b)) ih

theorem KeptByTable.raise (hP : KeptByTable P) (n : Nat) : Keeps P (raise (.fTable n)) := by
  intro s t hs h
  unfold Machine.raise at h
  split at h <;> cases h
  · exact hP.fault s n hs
  · exact hs

theorem KeptByTable.runRecord (hP : KeptByTable P) (opc : Byte) (args : List Byte) (dly : Option Byte) :
    Keeps P (runRecord opc args dly) := by
  intro s t hs h
  unfold Machine.runRecord at h
  split at h
  · exact hP.raise _ hs h
  · split at h
    · exact hP.raise _ (hP.scratch s _ hs) h
    · obtain ⟨u, h1, h2⟩ := andThen_eq_next.1 h
      obtain ⟨v, h3, h4⟩ := andThen_eq_next.1 h2
      cases h4
      have hu : P u := hP.sendFrame (isFrame_cmdFrame opc) (hP.scratch s _ hs) h1
      exact hP.tp _ _ (hP.wait v dly (hP.sendData args hu h3))

theorem KeptByTable.raiseCutOff (hP : KeptByTable P) (bs : List Byte) : Keeps P (raiseCutOff bs) := by
  intro s t hs h
  unfold Machine.raiseCutOff at h
  split at h
  · exact hP.raise _ (hP.scratch s _ hs) h
  · exact hP.raise _ hs h

theorem KeptByTable.recordAtTp (hP : KeptByTable P) : Keeps P recordAtTp := by
  intro s t hs h
  unfold Machine.recordAtTp at h
  split at h
  · exact keeps_whenLive (hP.runRecord _ _ _) hs h
  · exact keeps_whenLive (hP.runRecord _ _ _) hs h
  · exact hP.raiseCutOff _ hs h

theorem KeptByTable.tableTurn (hP : KeptByTable P) : Keeps P tableTurn := by
  refine keeps_whenLive fun s t hs h => ?_
  split at h
  · exact hP.recordAtTp hs h
  · cases h; exact hs

theorem KeptByTable.tableLoop (hP : KeptByTable P) (n : Nat) : Keeps P (tableLoop n) := by
  induction n with
  | zero => intro s t hs h; cases h; exact hs
  | succ n ih => exact keeps_andThen hP.tableTurn ih

/-- What every write of the interpreter keeps, `RUNTABLE` keeps. -/
theorem KeptByTable.execRuntable (hP : KeptByTable P) : Keeps P execRuntable :=
  keeps_whenLive fun s _ hs h => hP.tableLoop _ (hP.tp s 0 hs) h

end

end Sys2Proof.Machine
end

section
/-! Proofs for `10_state.md`, part 2: how `INITIALIZE` ends, and which requests move `PHASE`. -/

namespace Sys2Proof.Machine

/-- No fault, or `F_TABLE`. -/
def State.TableFaultAtMost (s : State) : Prop := s.fault = none ∨ ∃ tp, s.fault = some (.fTable tp)

theorem keptByTable_tableFaultAtMost : KeptByTable State.TableFaultAtMost where
  frames _ _ h := h
  wait s dly h := by simpa [State.TableFaultAtMost] using h
  scratch _ _ h := h
  tp _ _ h := h
  fault _ n _ := .inr ⟨n, rfl⟩

/-- Once the table has raised its fault the rest of `INITIALIZE` does nothing (R155). -/
theorem initAfterTable_faulted {s : State} {f : Raised} (h : s.fault = some f) : initAfterTable s = .next s := by
  simp only [initAfterTable, execColmod, execMadctl, execInvon, execAllocateBacklight, whenLive_some h, andThen_next]

/-- After a table without a fault `INITIALIZE` ends in `Ready` with a zero-filled buffer (R159). -/
theorem initAfterTable_live {s t : State} (hf : s.fault = none) (h : initAfterTable s = .next t) :
    t.phase = .ready ∧ t.fault = none ∧ t.fb = some [] := by
  obtain ⟨u, hu, h⟩ := andThen_eq_next.1 h
  obtain ⟨v, hv, h⟩ := andThen_eq_next.1 h
  obtain ⟨w, hw, h⟩ := andThen_eq_next.1 h
  have hfw : w.fault = none := by
    rw [(onlyWrites_execInvon hw).fault (by simp), (onlyWrites_execMadctl hv).fault (by simp),
      (onlyWrites_execColmod hu).fault (by simp), hf]
  rw [execAllocateBacklight, whenLive_none hfw] at h
  cases h
  exact ⟨rfl, by simpa using hfw, rfl⟩

/-- `RESETPULSE` and `SETTLE` lead to the table with `FAULT` and `FB` as they were. -/
theorem settle_resetpulse_next {s u v : State} (hf : s.fault = none) (hu : execResetpulse s = .next u)
    (hv : execSettle u = .next v) : v.phase = .runningInitTable ∧ v.fault = none ∧ v.fb = s.fb := by
  have hfu : u.fault = none := by rw [(onlyWrites_execResetpulse hu).fault (by simp), hf]
  have hbu : u.fb = s.fb := (onlyWrites_execResetpulse hu).fb (by simp)
  rw [execSettle, whenLive_none hfu] at hv
  cases hv
  exact ⟨rfl, by simpa using hfu, by simpa using hbu⟩

/-- The two ways the steps of `INITIALIZE` end (R151, R155, R190). -/
theorem initSequence_eq_next {s t : State} (hf : s.fault = none) (h : initSequence s = .next t) :
    (t.phase = .ready ∧ t.fault = none ∧ t.fb = some []) ∨
      (t.phase = .runningInitTable ∧ (∃ tp, t.fault = some (.fTable tp)) ∧ t.fb = s.fb) := by
  rw [initSequence_eq] at h
  obtain ⟨u, hu, h⟩ := andThen_eq_next.1 h
  obtain ⟨v, hv, h⟩ := andThen_eq_next.1 h
  obtain ⟨w, hw, h⟩ := andThen_eq_next.1 h
  obtain ⟨hpv, hfv, hbv⟩ := settle_resetpulse_next hf hu hv
  rcases keptByTable_tableFaultAtMost.execRuntable (.inl hfv) hw with hfw | ⟨tp, hfw⟩
  · exact .inl (initAfterTable_live hfw h)
  · rw [initAfterTable_faulted hfw] at h
    cases h
    have onlyTable := onlyWrites_execRuntable hw
    exact .inr ⟨(onlyTable.phase (by simp)).trans hpv, ⟨tp, hfw⟩, (onlyTable.fb (by simp)).trans hbv⟩

/-- Everything `INITIALIZE` can do (R151, R185): nothing after a fault, `F_PHASE` in another phase, its steps under a
legal configuration with both lines. -/
theorem execInitialise_eq_next {s t : State} (h : execInitialise s = .next t) :
    (s.fault ≠ none ∧ t = s) ∨
      (s.fault = none ∧ s.phase ≠ .uninitialized ∧ t = { s with fault := some (.fPhase .initialise s.phase) }) ∨
      (s.fault = none ∧ s.phase = .uninitialized ∧ configWF s.cfg = true ∧ s.linesPresent = true ∧
        initSequence s = .next t) := by
  rcases whenLive_eq_next.1 h with ⟨hf, h⟩ | ⟨hf, rfl⟩
  · by_cases hp : s.phase = .uninitialized
    · rw [inPhase_eq hp] at h
      split at h
      · next hc =>
        obtain ⟨hcfg, hlines⟩ := Bool.and_eq_true_iff.1 hc
        exact .inr (.inr ⟨hf, hp, hcfg, hlines, h⟩)
      · cases h
    · rw [inPhase_ne hp, raise_none hf] at h
      cases h
      exact .inr (.inl ⟨hf, hp, rfl⟩)
  · exact .inl ⟨hf, rfl⟩

/-- The eight host requests (R67). -/
theorem decodeRequest_ok {req : BitVec 4} {ints : List Int} {bytes : List Byte} {i : Instr}
    (h : decodeRequest req ints bytes = .ok i) :
    i = .setrstpin ∨ i = .setdcpin ∨ i = .setblpin ∨ i = .setcspin ∨ i = .initialise ∨ i = .update ∨
      (∃ x y c, i = .setpixel x y c) ∨ i = .getbuflen := by
  unfold decodeRequest at h
  split at h
  case h_9 => split at h <;> cases h
  all_goals cases h; simp

/-- No host request but `INITIALIZE` names `PHASE` among the state it writes. -/
theorem phase_notMem_writes_of_request {req : BitVec 4} {ints : List Int} {bytes : List Byte} {i : Instr}
    (h : decodeRequest req ints bytes = .ok i) (hi : i ≠ .initialise) : .phase ∉ writes i := by
  rcases decodeRequest_ok h with rfl | rfl | rfl | rfl | rfl | rfl | ⟨x, y, c, rfl⟩ | rfl <;>
    simp [writes] at hi ⊢

/-- Settles O54: only `INITIALIZE` writes `PHASE`, and its steps end in one of two ways. -/
theorem onlyInitializeMovesThePhase : Obligations.OnlyInitializeMovesThePhase := by
  intro req ints bytes i s t hd h
  by_cases hi : i = .initialise
  · subst hi
    rcases execInitialise_eq_next h with ⟨-, rfl⟩ | ⟨-, -, rfl⟩ | ⟨hf, hp, -, -, h⟩
    · exact .inl rfl
    · exact .inl rfl
    · refine .inr ⟨rfl, hp, ?_⟩
      rcases initSequence_eq_next hf h with ⟨hready, hfault, -⟩ | ⟨hrunning, hfault, -⟩
      · exact .inl ⟨hready, hfault⟩
      · exact .inr ⟨hrunning, hfault⟩
  · exact .inl ((onlyWrites_exec h).phase (phase_notMem_writes_of_request hd hi))

end Sys2Proof.Machine
end

section
/-! Proofs for `10_state.md`, part 3: the values after reset, and what every step keeps under host requests. -/

namespace Sys2Proof.Machine

/-! ## Reset -/

/-- After reset there is no buffer, the pointers are 0 and the trace is empty, so each clause holds at its start. -/
theorem inv_resetWith (c : Config) (agenda : List Item) : State.Inv { State.resetWith c with agenda := agenda } where
  buffer m hm := by cases hm
  tp := Nat.zero_le _
  sp := Nat.zero_le _
  framed := .nil
  dcLine := rfl
  csLine := rfl
  rstLine := rfl
  blLine := rfl

/-- The reset state is one the host can find. -/
theorem betweenRequests_resetWith (c : Config) {agenda : List Item} (h : ∀ it ∈ agenda, it.fromHost = true) :
    State.BetweenRequests { State.resetWith c with agenda := agenda } where
  host := h
  released := rfl
  dcQuiet := .inl rfl
  rstQuiet := .inl rfl
  blQuiet := .inl rfl
  phase := .inl rfl
  buffer := by simp [State.resetWith]
  legal hp := by cases hp

/-- Settles O12: every named value is the field's in `State.resetWith`. -/
theorem resetLeavesTheValuesTheSpecGives : Obligations.ResetLeavesTheValuesTheSpecGives := by
  intro c
  exact ⟨State.resetWith c, rfl, rfl, rfl, rfl, rfl, rfl, rfl, rfl, rfl, rfl, rfl, rfl, rfl, rfl, rfl, rfl, rfl⟩

/-- Settles O57: `State.reset` is the reset state of the smallest configuration with an empty agenda. -/
theorem resetMeetsTheInvariants : Obligations.ResetMeetsTheInvariants :=
  ⟨inv_resetWith _ [], betweenRequests_resetWith _ (agenda := []) (by simp),
    fun c agenda => ⟨inv_resetWith c agenda, betweenRequests_resetWith c⟩⟩

/-! ## The lines at rest (R23) -/

/-- `DC`, `RST` and `BL` are undriven or high. -/
structure State.LinesQuiet (s : State) : Prop where
  dc : s.dc.quiet
  rst : s.rst.quiet
  bl : s.bl.quiet

theorem State.BetweenRequests.linesQuiet {s : State} (h : s.BetweenRequests) : s.LinesQuiet :=
  ⟨h.dcQuiet, h.rstQuiet, h.blQuiet⟩

/-- An operation that writes no line leaves the lines at rest. -/
theorem OnlyWrites.linesQuiet {l : List Reg} {s t : State} (w : OnlyWrites l s t)
    (hl : ∀ r ∈ [Reg.dcLine, .rstLine, .blLine], r ∉ l) (h : s.LinesQuiet) : t.LinesQuiet where
  dc := by rw [w.dc (hl _ (by simp))]; exact h.dc
  rst := by rw [w.rst (hl _ (by simp))]; exact h.rst
  bl := by rw [w.bl (hl _ (by simp))]; exact h.bl

/-- A frame ends with `DC` high (R23). -/
theorem linesQuiet_afterFrames {s : State} (h : s.LinesQuiet) (es : List Event) : (s.afterFrames es).LinesQuiet :=
  ⟨.inr rfl, h.rst, h.bl⟩

theorem keptByTable_linesQuiet : KeptByTable State.LinesQuiet where
  frames _ es h := linesQuiet_afterFrames h es
  wait s dly h := by
    rw [State.emitAll_eq]
    cases dly <;> exact ⟨h.dc, h.rst, h.bl⟩
  scratch _ _ h := ⟨h.dc, h.rst, h.bl⟩
  tp _ _ h := ⟨h.dc, h.rst, h.bl⟩
  fault _ _ h := ⟨h.dc, h.rst, h.bl⟩

theorem linesQuiet_sendFrame {es : List Event} (he : IsFrame es) : Keeps State.LinesQuiet (sendFrame es) :=
  keptByTable_linesQuiet.sendFrame he

theorem linesQuiet_sendCmdArg (op arg : Byte) : Keeps State.LinesQuiet (sendCmdArg op arg) :=
  keeps_andThen (linesQuiet_sendFrame (isFrame_cmdFrame op)) (linesQuiet_sendFrame (isFrame_dataFrame arg))

theorem linesQuiet_sendAddress (op : Byte) (a : Addr4) : Keeps State.LinesQuiet (sendAddress op a) := by
  intro s t hs h
  obtain ⟨u, h1, h2⟩ := andThen_eq_next.1 h
  have h0 : State.LinesQuiet { s with addr := a } := ⟨hs.dc, hs.rst, hs.bl⟩
  have hu : u.LinesQuiet := linesQuiet_sendFrame (isFrame_cmdFrame op) h0 h1
  exact linesQuiet_sendFrame (isFrame_blockFrame _) hu h2

theorem linesQuiet_execStream : Keeps State.LinesQuiet execStream := by
  refine keeps_whenLive fun s t hs h => ?_
  split at h
  · cases h
  · obtain ⟨u, h1, h2⟩ := andThen_eq_next.1 h
    cases h2
    have h0 : State.LinesQuiet { s with sp := 0 } := ⟨hs.dc, hs.rst, hs.bl⟩
    have hu : u.LinesQuiet := linesQuiet_sendFrame (isFrame_blockFrame _) h0 h1
    exact ⟨hu.dc, hu.rst, hu.bl⟩

/-- The steps of `UPDATE` in a row (R138). -/
theorem linesQuiet_updateSteps : Keeps State.LinesQuiet fun s =>
    andThen (execWindow s) fun s => andThen (execCaset s) fun s => andThen (execRaset s) fun s =>
      andThen (execRamwr s) execStream :=
  keeps_andThen (fun _ _ hs h => (onlyWrites_execWindow h).linesQuiet (by simp) hs) <|
  keeps_andThen (keeps_whenLive fun _ _ hs h => linesQuiet_sendAddress _ _ hs h) <|
  keeps_andThen (keeps_whenLive fun _ _ hs h => linesQuiet_sendAddress _ _ hs h) <|
  keeps_andThen (keeps_whenLive fun _ _ hs h => linesQuiet_sendFrame (isFrame_cmdFrame _) hs h) linesQuiet_execStream

/-- The reset pulse ends with `RST` high (R153). -/
theorem linesQuiet_execResetpulse : Keeps State.LinesQuiet execResetpulse := by
  refine keeps_whenLive fun s t hs h => ?_
  cases h
  rw [State.emitAll_eq]
  cases s.rstPresent
  · exact ⟨hs.dc, hs.rst, hs.bl⟩
  · exact ⟨hs.dc, .inr rfl, hs.bl⟩

theorem linesQuiet_execMadctl : Keeps State.LinesQuiet execMadctl := by
  refine keeps_whenLive fun s t hs h => ?_
  split at h
  · exact linesQuiet_sendCmdArg _ _ hs h
  · cases h

theorem linesQuiet_execInvon : Keeps State.LinesQuiet execInvon := by
  refine keeps_whenLive fun s t hs h => ?_
  obtain ⟨u, h1, h2⟩ := andThen_eq_next.1 h
  cases h2
  have hu : u.LinesQuiet := by
    split at h1
    · exact linesQuiet_sendFrame (isFrame_cmdFrame _) hs h1
    · cases h1; exact hs
  exact ⟨hu.dc, hu.rst, hu.bl⟩

/-- The backlight is switched to high (R159). -/
theorem linesQuiet_execAllocateBacklight : Keeps State.LinesQuiet execAllocateBacklight := by
  refine keeps_whenLive fun s t hs h => ?_
  cases h
  rw [State.emitAll_eq]
  cases s.blPresent
  · exact ⟨hs.dc, hs.rst, hs.bl⟩
  · exact ⟨hs.dc, hs.rst, .inr rfl⟩

theorem linesQuiet_initSequence : Keeps State.LinesQuiet initSequence :=
  keeps_andThen linesQuiet_execResetpulse <|
  keeps_andThen (fun _ _ hs h => (onlyWrites_execSettle h).linesQuiet (by simp) hs) <|
  keeps_andThen keptByTable_linesQuiet.execRuntable <|
  keeps_andThen (keeps_whenLive fun _ _ hs h => linesQuiet_sendCmdArg _ _ hs h) <|
  keeps_andThen linesQuiet_execMadctl <| keeps_andThen linesQuiet_execInvon linesQuiet_execAllocateBacklight

/-! ## Between requests -/

/-- An operation that leaves `PHASE` alone and the lines quiet keeps the block at rest, when a set fault stays, the buffer
stays present or absent, and the two lines a frame needs change before `INITIALIZE` only. -/
theorem OnlyWrites.betweenRequests {l : List Reg} {s t : State} (w : OnlyWrites l s t) (h : s.BetweenRequests)
    (hphase : .phase ∉ l) (hquiet : t.LinesQuiet) (hfault : s.fault = none ∨ t.fault = s.fault)
    (hfb : t.fb.isSome = s.fb.isSome)
    (hpins : s.phase = .uninitialized ∨ (t.dcPresent = s.dcPresent ∧ t.csPresent = s.csPresent)) :
    t.BetweenRequests where
  host := by rw [w.agenda]; exact h.host
  released := w.cs.trans h.released
  dcQuiet := hquiet.dc
  rstQuiet := hquiet.rst
  blQuiet := hquiet.bl
  phase := by
    rw [w.phase hphase]
    rcases h.phase with hp | hp | ⟨hp, tp, hf⟩
    · exact .inl hp
    · exact .inr (.inl hp)
    · rcases hfault with h0 | hkept
      · simp [hf] at h0
      · exact .inr (.inr ⟨hp, tp, hkept.trans hf⟩)
  buffer := by rw [hfb, w.phase hphase]; exact h.buffer
  legal := by
    rw [w.phase hphase, w.cfg]
    intro hp
    rcases hpins with hu | ⟨hdc, hcs⟩
    · simp [hu] at hp
    · rw [hdc, hcs]; exact h.legal hp

/-- An operation after a fault changes nothing, so only its live run can disturb the block. -/
theorem betweenRequests_whenLive {s t : State} {k : State → Result} (h : s.BetweenRequests)
    (hk : s.fault = none → k s = .next t → t.BetweenRequests) (hs : whenLive s k = .next t) : t.BetweenRequests := by
  rcases whenLive_eq_next.1 hs with ⟨hf, hs⟩ | ⟨-, rfl⟩
  · exact hk hf hs
  · exact h

theorem betweenRequests_raise {s t : State} {f : Raised} (h : s.BetweenRequests) (hf : s.fault = none)
    (hs : raise f s = .next t) : t.BetweenRequests := by
  have w := onlyWrites_raise hs
  exact w.betweenRequests h (by simp) (w.linesQuiet (by simp) h.linesQuiet) (.inl hf) (by rw [w.fb (by simp)])
    (.inr ⟨w.dcPresent (by simp), w.csPresent (by simp)⟩)

theorem betweenRequests_inPhase {s t : State} {p : Phase} {req : HostReq} {k : State → Result} (h : s.BetweenRequests)
    (hf : s.fault = none) (hk : s.phase = p → k s = .next t → t.BetweenRequests)
    (hs : inPhase p req s k = .next t) : t.BetweenRequests := by
  unfold inPhase at hs
  split at hs
  · next hp => exact hk hp hs
  · exact betweenRequests_raise h hf hs

/-- A pin request supplies its line before `INITIALIZE`, or raises `F_PHASE` (R150). -/
theorem betweenRequests_supplyLine {s t : State} {req : HostReq} {supply : State → State} (h : s.BetweenRequests)
    (w : OnlyWrites [.rstPresent, .dcPresent, .blPresent, .csPresent] s (supply s))
    (hs : supplyLine req supply s = .next t) : t.BetweenRequests := by
  refine betweenRequests_whenLive h (fun hf hs => ?_) hs
  refine betweenRequests_inPhase h hf (fun hp hs => ?_) hs
  cases hs
  exact w.betweenRequests h (by simp) (w.linesQuiet (by simp) h.linesQuiet) (.inl hf) (by rw [w.fb (by simp)]) (.inl hp)

theorem betweenRequests_execUpdate {s t : State} (h : s.BetweenRequests) (hs : execUpdate s = .next t) :
    t.BetweenRequests := by
  have w := onlyWrites_execUpdate hs
  refine betweenRequests_whenLive h (fun hf hs => ?_) hs
  refine betweenRequests_inPhase h hf (fun _ hs => ?_) hs
  exact w.betweenRequests h (by simp [writes]) (linesQuiet_updateSteps h.linesQuiet hs) (.inl hf)
    (by rw [w.fb (by simp [writes])]) (.inr ⟨w.dcPresent (by simp [writes]), w.csPresent (by simp [writes])⟩)

/-- A buffer write needs an allocated buffer and leaves one. -/
theorem betweenRequests_fbWrite {s t : State} {a : Nat} {bs : List Byte} (h : s.BetweenRequests)
    (hs : fbWrite a bs s = .next t) : t.BetweenRequests := by
  have w := onlyWrites_fbWrite hs
  obtain ⟨m, hm, -, rfl⟩ := fbWrite_eq_next hs
  exact w.betweenRequests h (by simp) (w.linesQuiet (by simp) h.linesQuiet) (.inr rfl) (by simp [hm]) (.inr ⟨rfl, rfl⟩)

theorem betweenRequests_execSetpixel {s t : State} {x y : Int} {color : Rgb} (h : s.BetweenRequests)
    (hs : execSetpixel x y color s = .next t) : t.BetweenRequests := by
  refine betweenRequests_whenLive h (fun hf hs => ?_) hs
  refine betweenRequests_inPhase h hf (fun _ hs => ?_) hs
  split at hs
  · exact betweenRequests_fbWrite h hs
  · exact betweenRequests_raise h hf hs

theorem betweenRequests_execGetbuflen {s t : State} (h : s.BetweenRequests) (hs : execGetbuflen s = .next t) :
    t.BetweenRequests := by
  cases hs
  exact ⟨h.host, h.released, h.dcQuiet, h.rstQuiet, h.blQuiet, h.phase, h.buffer, h.legal⟩

/-- The steps of `INITIALIZE`, from a block without a buffer under a legal configuration with both lines. -/
theorem betweenRequests_initSequence {s t : State} (h : s.BetweenRequests) (hf : s.fault = none)
    (hp : s.phase = .uninitialized) (hcfg : configWF s.cfg = true) (hlines : s.linesPresent = true)
    (hs : initSequence s = .next t) : t.BetweenRequests := by
  have w := onlyWrites_initSequence hs
  have hquiet := linesQuiet_initSequence h.linesQuiet hs
  have ends := initSequence_eq_next hf hs
  obtain ⟨hdc, hcs⟩ := Bool.and_eq_true_iff.1 hlines
  refine ⟨by rw [w.agenda]; exact h.host, w.cs.trans h.released, hquiet.dc, hquiet.rst, hquiet.bl, ?_, ?_, fun _ =>
    ⟨by rw [w.cfg, hcfg], by rw [w.dcPresent (by simp [writes]), hdc], by rw [w.csPresent (by simp [writes]), hcs]⟩⟩
  · rcases ends with ⟨hready, -, -⟩ | ⟨hrunning, hfault, -⟩
    · exact .inr (.inl hready)
    · exact .inr (.inr ⟨hrunning, hfault⟩)
  · rcases ends with ⟨hready, -, hfb⟩ | ⟨hrunning, -, hfb⟩
    · simp [hready, hfb]
    · have hnone : ¬ s.fb.isSome = true := by simp [h.buffer, hp]
      simp [hrunning, hfb, hnone]

theorem betweenRequests_execInitialise {s t : State} (h : s.BetweenRequests) (hs : execInitialise s = .next t) :
    t.BetweenRequests := by
  rcases execInitialise_eq_next hs with ⟨-, rfl⟩ | ⟨hf, -, rfl⟩ | ⟨hf, hp, hcfg, hlines, hs⟩
  · exact h
  · exact betweenRequests_raise h hf (raise_none hf _)
  · exact betweenRequests_initSequence h hf hp hcfg hlines hs

/-- Every host request keeps the block at rest. -/
theorem betweenRequests_request {req : BitVec 4} {ints : List Int} {bytes : List Byte} {i : Instr} {s t : State}
    (hd : decodeRequest req ints bytes = .ok i) (h : s.BetweenRequests) (hs : exec i s = .next t) :
    t.BetweenRequests := by
  rcases decodeRequest_ok hd with rfl | rfl | rfl | rfl | rfl | rfl | ⟨x, y, c, rfl⟩ | rfl
  · exact betweenRequests_supplyLine h (by constructor <;> simp) hs
  · exact betweenRequests_supplyLine h (by constructor <;> simp) hs
  · exact betweenRequests_supplyLine h (by constructor <;> simp) hs
  · exact betweenRequests_supplyLine h (by constructor <;> simp) hs
  · exact betweenRequests_execInitialise h hs
  · exact betweenRequests_execUpdate h hs
  · exact betweenRequests_execSetpixel h hs
  · exact betweenRequests_execGetbuflen h hs

/-- Every item the host can put on the agenda keeps the block at rest. -/
theorem betweenRequests_runItem {it : Item} {s t : State} (hit : it.fromHost = true) (h : s.BetweenRequests)
    (hs : runItem it s = .next t) : t.BetweenRequests := by
  cases it with
  | issue c =>
    cases c with
    | request req ints bytes =>
      simp only [runItem, decode] at hs
      split at hs
      · next hd => exact betweenRequests_request hd h hs
      · cases hs
      · cases hs
    | _ => cases hit
  | overlap c => cases hs
  | tableStep => cases hit
  | blockReset =>
    cases hs
    exact betweenRequests_resetWith s.cfg h.host

/-- Taking an item off the agenda leaves the block as it was. -/
theorem betweenRequests_tail {it : Item} {rest : List Item} {s : State} (h : s.BetweenRequests)
    (ha : s.agenda = it :: rest) : State.BetweenRequests { s with agenda := rest } :=
  ⟨fun it' hit => h.host it' (by simp [ha, hit]), h.released, h.dcQuiet, h.rstQuiet, h.blQuiet, h.phase, h.buffer,
    h.legal⟩

/-- Settles O58: a step takes one item of the host, and each kind of item keeps the block at rest. -/
theorem hostRequestsKeepTheBlockAtRest : Obligations.HostRequestsKeepTheBlockAtRest := by
  intro s t h hs
  unfold step takeItem at hs
  split at hs
  · cases hs
    exact h
  · next it rest ha =>
    exact betweenRequests_runItem (h.host it (by simp [ha])) (betweenRequests_tail h ha) hs

end Sys2Proof.Machine
end

section
/-! Proofs for `30_encoding.md`: the bytes of one record, the header's two fields, and the tables that are records in a
row. -/

namespace Sys2Proof.Machine

/-! ## One record -/

/-- The encoding of a record is its bytes, with the delay byte exactly when there is one (R61). -/
theorem encode_recInstr (opc : Byte) (args : List Byte) (dly : Option Byte) :
    encode (recInstr opc args dly) = .record (recordBytes opc args dly) := by
  cases dly <;> rfl

theorem wf_recInstr (opc : Byte) {args : List Byte} (dly : Option Byte) (h : args.length ≤ 127) :
    (recInstr opc args dly).wf = true := by
  cases dly <;> simp [recInstr, Instr.wf, h]

/-- Settles O3: what a successful read says of the bytes, with the header's counts put into `RECLEN`. -/
theorem decodedRecordIsExactlyTheBytesRead : Obligations.DecodedRecordIsExactlyTheBytesRead := by
  intro bs rest i hd
  obtain ⟨opc, hdr, args, dly, rfl, rfl, hle, hhdr, hargs, hdly, -⟩ := decodeRecord_ok hd
  obtain rfl : mkHdr dly.isSome args.length = hdr := by simpa [recordBytes] using hhdr
  refine ⟨wf_recInstr opc dly hle, opc, _, _, recordBytes opc args dly, rfl, encode_recInstr .., rfl, ?_⟩
  rw [recordBytes_length, ← hargs, ← hdly]

/-! ## Records in a row -/

/-- The bytes of some list of records, each with a count that fits (R65). -/
def RecordsInARow (bs : List Byte) : Prop := ∃ rs : List TableRecord, (∀ r ∈ rs, r.wf) ∧ bs = tableBytes rs

theorem recordsInARow_nil : RecordsInARow [] := ⟨[], by simp, rfl⟩

/-- Bytes that are records in a row start with a record that reads, and the bytes it leaves are records in a row. -/
theorem recordsInARow_iff_of_ne_nil {bs : List Byte} (hne : bs ≠ []) :
    RecordsInARow bs ↔ ∃ i rest, decodeRecord bs = .ok (i, rest) ∧ RecordsInARow rest := by
  constructor
  · rintro ⟨rs, hwf, rfl⟩
    cases rs with
    | nil => exact absurd rfl hne
    | cons r rs =>
      rw [List.forall_mem_cons] at hwf
      exact ⟨_, tableBytes rs, decodeRecord_bytes r.opc r.args _ r.dly hwf.1, rs, hwf.2, rfl⟩
  · rintro ⟨i, rest, hd, rs, hwf, rfl⟩
    obtain ⟨opc, -, args, dly, rfl, -, hle, -⟩ := decodeRecord_ok hd
    exact ⟨⟨opc, args, dly⟩ :: rs, List.forall_mem_cons.2 ⟨hle, hwf⟩, rfl⟩

theorem two_le_recLen (hdr : Byte) : 2 ≤ recLen hdr := Nat.le_add_right ..

/-- A record reads exactly when `RECLEN` bytes are there, and it leaves what comes after them. -/
theorem decodeRecord_leaves_iff {bs rest : List Byte} :
    (∃ i, decodeRecord bs = .ok (i, rest)) ↔
      recLen (bs.getD 1 0) ≤ bs.length ∧ rest = bs.drop (recLen (bs.getD 1 0)) := by
  match bs with
  | [] => simp [decodeRecord, recLen]
  | [_] => simp [decodeRecord, recLen]; omega
  | opc :: hdr :: tl =>
    have hdrop : (opc :: hdr :: tl).drop (recLen hdr) = tl.drop (hdrTail hdr) := by
      rw [recLen, Nat.add_comm]; rfl
    have hlen : recLen hdr ≤ (opc :: hdr :: tl).length ↔ ¬ tl.length < hdrTail hdr := by
      simp only [recLen, List.length_cons]; omega
    simp only [List.getD_cons_succ, List.getD_cons_zero, hdrop, hlen, decodeRecord]
    split
    · next h => simp [h]
    · next h => split <;> simp [h, eq_comm]

/-- The same by table index, as the loop of `TableWF` counts. -/
theorem decodeRecord_drop_leaves_iff {t rest : List Byte} {p : Nat} (hp : p ≤ t.length) :
    (∃ i, decodeRecord (t.drop p) = .ok (i, rest)) ↔
      p + recLen (t.getD (p + 1) 0) ≤ t.length ∧ rest = t.drop (p + recLen (t.getD (p + 1) 0)) := by
  have hhdr : (t.drop p).getD 1 0 = t.getD (p + 1) 0 := by simp [List.getD]
  rw [decodeRecord_leaves_iff, hhdr, List.drop_drop, List.length_drop, Nat.le_sub_iff_add_le' hp]

/-- `TableWF`'s loop at the end of the table. -/
theorem tableWFFrom_length (t : List Byte) (fuel : Nat) : tableWFFrom t fuel t.length = true := by
  unfold tableWFFrom
  simp

/-- One turn of `TableWF`'s loop: `RECLEN` bytes are there, and the loop goes on after them. -/
theorem tableWFFrom_succ {t : List Byte} {fuel p : Nat} (hp : p < t.length) :
    tableWFFrom t (fuel + 1) p = true ↔
      p + recLen (t.getD (p + 1) 0) ≤ t.length ∧ tableWFFrom t fuel (p + recLen (t.getD (p + 1) 0)) = true := by
  have hrec := two_le_recLen (t.getD (p + 1) 0)
  rw [tableWFFrom, if_pos hp]
  generalize recLen (t.getD (p + 1) 0) = n at hrec ⊢
  by_cases hle : p + n ≤ t.length
  · rw [if_neg (by omega), if_neg (by omega)]
    simp [hle]
  · rw [if_pos (show p + n > t.length by omega), ite_self]
    simp [hle]

/-- The loop from `p` accepts exactly when the bytes from `p` on are records in a row. -/
theorem tableWFFrom_iff {t : List Byte} {fuel p : Nat} (hp : p ≤ t.length) (hfuel : t.length ≤ p + fuel) :
    tableWFFrom t fuel p = true ↔ RecordsInARow (t.drop p) := by
  induction fuel generalizing p with
  | zero =>
    obtain rfl : p = t.length := by omega
    simp [tableWFFrom_length, recordsInARow_nil]
  | succ fuel ih =>
    rcases hp.eq_or_lt with rfl | hlt
    · simp [tableWFFrom_length, recordsInARow_nil]
    · have hne : t.drop p ≠ [] := by simpa using hlt
      have hrec := two_le_recLen (t.getD (p + 1) 0)
      rw [tableWFFrom_succ hlt, recordsInARow_iff_of_ne_nil hne, exists_comm]
      simp only [exists_and_right, decodeRecord_drop_leaves_iff hp]
      constructor
      · rintro ⟨hle, h⟩
        exact ⟨_, ⟨hle, rfl⟩, (ih hle (by omega)).1 h⟩
      · rintro ⟨_, ⟨hle, rfl⟩, h⟩
        exact ⟨hle, (ih hle (by omega)).2 h⟩

/-- Settles O6: the loop of `TableWF` from index 0. -/
theorem tableIsWellFormedIffRecordsInARow : Obligations.TableIsWellFormedIffRecordsInARow := fun t =>
  tableWFFrom_iff t.length.zero_le (by omega)

/-! ## Words and headers -/

/-- Settles O1: each word is a closed term and the decoder computes. -/
theorem wordsDecodeAsTheirRows : Obligations.WordsDecodeAsTheirRows := by
  unfold Obligations.WordsDecodeAsTheirRows
  decide

/-- Settles O4: the two fields as numbers; a header of 0x81 is the one that `recordBytes` writes for one argument and a
delay. -/
theorem headerHoldsCountAndDelayFlag : Obligations.HeaderHoldsCountAndDelayFlag := by
  refine ⟨fun hdr => ⟨hdrArgn_toNat hdr, by simp [hdrDlyf_eq]⟩, fun opc a d => ?_⟩
  have hhdr : mkHdr true 1 = 0x81 := by decide
  have hread := decodeRecord_bytes opc [a] [] (some d) (by simp)
  simp only [recordBytes, Option.isSome_some, List.length_singleton, hhdr] at hread
  exact congrArg (Except.map Prod.fst) hread

end Sys2Proof.Machine
end

section
/-! Proofs for `40_transport_framing.md`, part 1: the three framing primitives, and the invariant of every step. -/

namespace Sys2Proof.Machine

/-! ## The framing primitives (R81 to R83) -/

/-- Settles O13: a live `CMDW` is its frame, and the frame can be sent. -/
theorem commandWriteEmitsItsFrame : Obligations.CommandWriteEmitsItsFrame := fun b _ h =>
  (whenLive_none h.live _).trans (sendFrame_cmd h b)

/-- Settles O14: a live `DATW` is its frame, and the frame can be sent. -/
theorem dataWriteEmitsItsFrame : Obligations.DataWriteEmitsItsFrame := fun b _ h =>
  (whenLive_none h.live _).trans (sendFrame_data h b)

/-- A block of one byte is a data frame (R83). -/
theorem blockFrame_singleton (b : Byte) : blockFrame [b] = dataFrame b := rfl

/-- Settles O15: a live `BLKW` is its frame, and for one byte that frame is the one of `DATW`. -/
theorem blockWriteEmitsOneTransaction : Obligations.BlockWriteEmitsOneTransaction := by
  intro bs s h
  constructor
  · have hsent : exec (.blkw bs) s = .next (s.afterFrames (blockFrame bs)) :=
      (whenLive_none h.live _).trans (sendFrame_block h bs)
    rw [hsent]
    simp [State.afterFrames, blockFrame]
  · rintro b rfl
    simp only [exec, execBlkw, execDatw, blockFrame_singleton]

/-! ## Traces of whole frames (R85) -/

theorem framed_item {es : List Event} (h : TraceItem es) : Framed es := Framed.snoc .nil h

/-- Whole frames after whole frames are whole frames. -/
theorem framed_append {es fs : List Event} (hes : Framed es) (hfs : Framed fs) : Framed (es ++ fs) := by
  induction hfs with
  | nil => simpa using hes
  | snoc _ hitem ih => simpa using ih.snoc hitem

/-- The reset pulse (R153) is five items of the grammar. -/
theorem framed_resetPulse : Framed resetPulse :=
  framed_append (framed_item (.rst .high)) <| framed_append (framed_item (.wait rstHighMs)) <|
  framed_append (framed_item (.rst .low)) <| framed_append (framed_item (.wait rstLowMs)) <| framed_item (.rst .high)

/-- More whole frames keep the invariant. -/
theorem inv_emitFramed {s : State} (h : s.Inv) {es : List Event} (hes : Framed es) : (s.emitAll es).Inv := by
  induction hes with
  | nil => exact h
  | snoc _ hitem ih =>
    rw [State.emitAll_append]
    exact inv_emitAll ih hitem

/-! ## Every instruction keeps the invariant -/

/-- The registers the invariant speaks of. -/
def invRegs : List Reg := [.buffer, .tp, .sp, .trace, .dcLine, .rstLine, .blLine]

/-- A transition that writes none of those registers keeps the invariant. -/
theorem OnlyWrites.inv {l : List Reg} {s t : State} (w : OnlyWrites l s t) (hl : ∀ r ∈ invRegs, r ∉ l) (h : s.Inv) :
    t.Inv := by
  have htrace : t.trace = s.trace := w.trace (hl _ (by simp [invRegs]))
  exact {
    buffer := by rw [w.fb (hl _ (by simp [invRegs])), w.cfg]; exact h.buffer
    tp := by rw [w.tp (hl _ (by simp [invRegs])), w.cfg]; exact h.tp
    sp := by rw [w.sp (hl _ (by simp [invRegs])), w.cfg]; exact h.sp
    framed := by rw [htrace]; exact h.framed
    dcLine := by rw [w.dc (hl _ (by simp [invRegs])), htrace]; exact h.dcLine
    csLine := by rw [w.cs, htrace]; exact h.csLine
    rstLine := by rw [w.rst (hl _ (by simp [invRegs])), htrace]; exact h.rstLine
    blLine := by rw [w.bl (hl _ (by simp [invRegs])), htrace]; exact h.blLine }

/-- The invariant says nothing of `PHASE`. -/
theorem inv_phase {s : State} (h : s.Inv) (p : Phase) : State.Inv { s with phase := p } :=
  (onlyWrites_phase s p).inv (by simp [invRegs]) h

/-- `SP` may stand anywhere up to `FBLEN` (R12). -/
theorem inv_sp {s : State} (h : s.Inv) {n : Nat} (hn : n ≤ s.cfg.fblen) : State.Inv { s with sp := n } :=
  ⟨h.buffer, h.tp, hn, h.framed, h.dcLine, h.csLine, h.rstLine, h.blLine⟩

/-- `TP` may stand anywhere up to `TLEN` (R11). -/
theorem inv_tp {s : State} (h : s.Inv) {n : Nat} (hn : n ≤ s.cfg.tlen) : State.Inv { s with tp := n } :=
  ⟨h.buffer, hn, h.sp, h.framed, h.dcLine, h.csLine, h.rstLine, h.blLine⟩

/-- The zero-filled buffer of `ALLOCATE` (R159). -/
theorem inv_emptyBuffer {s : State} (h : s.Inv) : State.Inv { s with fb := some [] } where
  buffer m hm := by
    cases hm
    exact ⟨Memory.wf_nil, by simp⟩
  tp := h.tp
  sp := h.sp
  framed := h.framed
  dcLine := h.dcLine
  csLine := h.csLine
  rstLine := h.rstLine
  blLine := h.blLine

theorem inv_execRuntable : Keeps State.Inv execRuntable :=
  keeps_whenLive fun _ _ h hs => inv_tableLoop (inv_tp h (Nat.zero_le _)) hs

theorem inv_execWindow : Keeps State.Inv execWindow := fun _ _ h hs =>
  (onlyWrites_execWindow hs).inv (by simp [invRegs]) h

theorem inv_execCaset : Keeps State.Inv execCaset := keeps_whenLive fun _ _ => inv_sendAddress

theorem inv_execRaset : Keeps State.Inv execRaset := keeps_whenLive fun _ _ => inv_sendAddress

theorem inv_execRamwr : Keeps State.Inv execRamwr := keeps_whenLive fun _ _ => inv_sendFrame (traceItem_cmdFrame _)

/-- `SP` is 0 while the frame goes out and `FBLEN` after it (R137). -/
theorem inv_execStream : Keeps State.Inv execStream := by
  refine keeps_whenLive fun s t h hs => ?_
  split at hs
  · cases hs
  · obtain ⟨u, hu, ht⟩ := andThen_eq_next.1 hs
    cases ht
    have hcfg : u.cfg = s.cfg := (onlyWrites_sendFrame (isFrame_blockFrame _) hu).cfg
    have hinv : u.Inv := inv_sendFrame (traceItem_blockFrame _) (inv_sp h (Nat.zero_le _)) hu
    exact inv_sp hinv (by rw [hcfg])

theorem inv_execUpdate : Keeps State.Inv execUpdate :=
  keeps_whenLive fun _ _ h => inv_inPhase h <|
    keeps_andThen inv_execWindow (keeps_andThen inv_execCaset (keeps_andThen inv_execRaset
      (keeps_andThen inv_execRamwr inv_execStream))) h

theorem inv_execColmod : Keeps State.Inv execColmod := keeps_whenLive fun _ _ => inv_sendCmdArg

theorem inv_execMadctl : Keeps State.Inv execMadctl := by
  refine keeps_whenLive fun s t h hs => ?_
  split at hs
  · exact inv_sendCmdArg h hs
  · cases hs

theorem inv_execInvon : Keeps State.Inv execInvon := by
  refine keeps_whenLive fun s t h hs => ?_
  obtain ⟨u, hu, ht⟩ := andThen_eq_next.1 hs
  cases ht
  refine inv_phase ?_ _
  split at hu
  · exact inv_sendFrame (traceItem_cmdFrame _) h hu
  · cases hu
    exact h

/-- The reset pulse is whole frames, with the line and without it (R153). -/
theorem inv_execResetpulse : Keeps State.Inv execResetpulse := by
  refine keeps_whenLive fun s t h hs => ?_
  cases hs
  refine inv_phase (inv_emitFramed h ?_) _
  split
  · exact framed_resetPulse
  · exact .nil

theorem inv_execSettle : Keeps State.Inv execSettle := by
  refine keeps_whenLive fun s t h hs => ?_
  cases hs
  exact inv_phase (inv_emitAll h (.wait _)) _

theorem inv_execAllocateBacklight : Keeps State.Inv execAllocateBacklight := by
  refine keeps_whenLive fun s t h hs => ?_
  cases hs
  refine inv_phase (inv_emptyBuffer (inv_emitFramed h ?_)) _
  split
  · exact framed_item (.bl .high)
  · exact .nil

theorem inv_initSequence : Keeps State.Inv initSequence :=
  keeps_andThen inv_execResetpulse <| keeps_andThen inv_execSettle <| keeps_andThen inv_execRuntable <|
  keeps_andThen inv_execColmod <| keeps_andThen inv_execMadctl <| keeps_andThen inv_execInvon inv_execAllocateBacklight

theorem inv_execInitialise : Keeps State.Inv execInitialise := by
  refine keeps_whenLive fun s t h hs => inv_inPhase h (fun hs => ?_) hs
  split at hs
  · exact inv_initSequence h hs
  · cases hs

theorem inv_execSetpixel (x y : Int) (color : Rgb) : Keeps State.Inv (execSetpixel x y color) := by
  refine keeps_whenLive fun s t h hs => inv_inPhase h (fun hs => ?_) hs
  split at hs
  · exact inv_fbWrite h hs
  · exact inv_raise h hs

/-- An instruction whose rule writes none of the invariant's registers keeps the invariant. -/
theorem inv_exec_of_writes {i : Instr} (hi : ∀ r ∈ invRegs, r ∉ writes i) : Keeps State.Inv (exec i) :=
  fun _ _ h hs => (onlyWrites_exec hs).inv hi h

/-- Every instruction keeps the invariant. -/
theorem inv_exec (i : Instr) : Keeps State.Inv (exec i) := by
  cases i with
  | tblRec opc args => exact keeps_whenLive fun _ _ => inv_runRecord
  | tblRecD opc args dly => exact keeps_whenLive fun _ _ => inv_runRecord
  | cmdw b => exact keeps_whenLive fun _ _ => inv_sendFrame (traceItem_cmdFrame b)
  | datw b => exact keeps_whenLive fun _ _ => inv_sendFrame (traceItem_dataFrame b)
  | blkw bs => exact keeps_whenLive fun _ _ => inv_sendFrame (traceItem_blockFrame bs)
  | initialise => exact inv_execInitialise
  | update => exact inv_execUpdate
  | setpixel x y color => exact inv_execSetpixel x y color
  | caset => exact inv_execCaset
  | raset => exact inv_execRaset
  | ramwr => exact inv_execRamwr
  | colmod => exact inv_execColmod
  | madctl => exact inv_execMadctl
  | invon => exact inv_execInvon
  | runtable => exact inv_execRuntable
  | resetpulse => exact inv_execResetpulse
  | settle => exact inv_execSettle
  | allocateBacklight => exact inv_execAllocateBacklight
  | stream => exact inv_execStream
  | setrstpin | setdcpin | setblpin | setcspin | getbuflen | window | enc332 | enc565 | dec565 | expand332 | req565 =>
    exact inv_exec_of_writes (by simp [invRegs, writes])

/-! ## Every step keeps the invariant -/

/-- Every item keeps the invariant: the instruction it decodes to, a turn of the loop, a reset. -/
theorem inv_runItem (it : Item) : Keeps State.Inv (runItem it) := by
  intro s t h hs
  cases it with
  | issue c =>
    simp only [runItem] at hs
    split at hs
    · exact inv_exec _ h hs
    · cases hs
    · cases hs
  | overlap c => cases hs
  | tableStep => exact inv_tableTurn h hs
  | blockReset =>
    cases hs
    exact inv_resetWith s.cfg s.agenda

/-- The invariant does not look at the agenda. -/
theorem inv_agenda {s : State} (h : s.Inv) (agenda : List Item) : State.Inv { s with agenda := agenda } :=
  ⟨h.buffer, h.tp, h.sp, h.framed, h.dcLine, h.csLine, h.rstLine, h.blLine⟩

/-- Settles O56: a step takes an item off the agenda and runs it, and both keep the invariant. -/
theorem everyStepKeepsTheInvariant : Obligations.EveryStepKeepsTheInvariant := by
  intro s t h hs
  unfold step takeItem at hs
  split at hs
  · cases hs
    exact h
  · exact inv_runItem _ (inv_agenda h _) hs

end Sys2Proof.Machine
end

section
/-! Proofs for `40_transport_framing.md`, part 2: the bus discipline of a trace of whole frames (R85). -/

namespace Sys2Proof.Machine

/-! ## The events of a list, each with what is before and after it -/

/-- An event of `x :: l` is `x` with nothing before it, or an event of `l` with `x` before it. -/
theorem forall_event_cons {x : Event} {l : List Event} {P : List Event → Event → List Event → Prop} :
    (∀ a e b, x :: l = a ++ e :: b → P a e b) ↔ P [] x l ∧ ∀ a e b, l = a ++ e :: b → P (x :: a) e b := by
  constructor
  · intro h
    exact ⟨h [] x l rfl, fun a e b hl => h (x :: a) e b (by rw [hl, List.cons_append])⟩
  · rintro ⟨hfirst, hlater⟩ a e b h
    cases a with
    | nil =>
      cases h
      exact hfirst
    | cons y a =>
      obtain ⟨rfl, hl⟩ := List.cons.inj h
      exact hlater a e b hl

theorem forall_event_nil {P : List Event → Event → List Event → Prop} (a : List Event) (e : Event) (b : List Event)
    (h : [] = a ++ e :: b) : P a e b := by
  simp at h

/-- An event of `l ++ m` is one of `l` with `m` after it, or one of `m` with `l` before it. -/
theorem forall_event_append {l m : List Event} {P : List Event → Event → List Event → Prop} :
    (∀ a e b, l ++ m = a ++ e :: b → P a e b) ↔
      (∀ a e b, l = a ++ e :: b → P a e (b ++ m)) ∧ ∀ a e b, m = a ++ e :: b → P (l ++ a) e b := by
  induction l generalizing P with
  | nil => exact ⟨fun h => ⟨forall_event_nil, h⟩, fun h => h.2⟩
  | cons x l ih =>
    rw [List.cons_append, forall_event_cons, ih, forall_event_cons, and_assoc]
    rfl

/-! ## The rules of R85 at one event -/

/-- What R85 says of an event `e` that meets the lines `CS` = `c` and `DC` = `d`, with the events `a` before it and `b`
after it. -/
structure ObeysBus (c : ChipSelect) (d : Line) (a : List Event) (e : Event) (b : List Event) : Prop where
  outside : c = .released → e ≠ .cs .released ∧ ∀ v, e ≠ .tx v
  inside : c = .asserted → e ≠ .cs .asserted ∧ (∀ l, e ≠ .rst l) ∧ (∀ l, e ≠ .bl l) ∧ ∀ n, e ≠ .wait n
  command : ∀ v, e = .tx v → d = .driven .low →
    ∃ a' b', a = a' ++ [.dc .low, .cs .asserted] ∧ b = .dc .high :: .cs .released :: b'

/-- The rules also hold with more events before and after, the lines at the event being the same. -/
theorem ObeysBus.within {c : ChipSelect} {d : Line} {a b : List Event} {e : Event} (h : ObeysBus c d a e b)
    (pre post : List Event) : ObeysBus c d (pre ++ a) e (b ++ post) where
  outside := h.outside
  inside := h.inside
  command v hv hd := by
    obtain ⟨a', b', rfl, rfl⟩ := h.command v hv hd
    exact ⟨pre ++ a', b' ++ post, by simp, by simp⟩

/-- Outside a transaction every event is in order but `CS(release)` and `TX`. -/
theorem obeysBus_released {d : Line} {a b : List Event} {e : Event} (hcs : e ≠ .cs .released) (htx : ∀ v, e ≠ .tx v) :
    ObeysBus .released d a e b where
  outside _ := ⟨hcs, htx⟩
  inside h := by cases h
  command v hv := absurd hv (htx v)

/-- Inside a transaction the release is in order. -/
theorem obeysBus_release {d : Line} {a b : List Event} : ObeysBus .asserted d a (.cs .released) b :=
  ⟨by simp, by simp, by simp⟩

/-- Inside a transaction with `DC` = 1 any byte is in order. -/
theorem obeysBus_dataByte {v : Byte} {a b : List Event} : ObeysBus .asserted (.driven .high) a (.tx v) b :=
  ⟨by simp, by simp, by simp⟩

/-! ## The items of the grammar -/

/-- Every event of the list obeys R85 when the list starts with `CS` released and `DC` = `d`. -/
def KeepsBus (d : Line) (es : List Event) : Prop :=
  ∀ a e b, es = a ++ e :: b → ObeysBus (a.foldl csStep .released) (a.foldl dcStep d) a e b

/-- A command frame: its one byte goes out with `DC` = 0 between the events R85 names. -/
theorem keepsBus_cmdFrame (d : Line) (v : Byte) : KeepsBus d (cmdFrame v) :=
  forall_event_cons.2 ⟨obeysBus_released (by simp) (by simp),
  forall_event_cons.2 ⟨obeysBus_released (by simp) (by simp),
  forall_event_cons.2 ⟨⟨by simp [csStep], by simp, fun _ _ _ => ⟨[], [], rfl, rfl⟩⟩,
  forall_event_cons.2 ⟨⟨by simp [csStep], by simp, by simp⟩,
  forall_event_cons.2 ⟨obeysBus_release, forall_event_nil⟩⟩⟩⟩⟩

/-- The bytes of a block go out inside the transaction with `DC` = 1. -/
theorem keepsBus_blockFrame (d : Line) (bs : List Byte) : KeepsBus d (blockFrame bs) := by
  refine forall_event_cons.2 ⟨obeysBus_released (by simp) (by simp),
    forall_event_cons.2 ⟨obeysBus_released (by simp) (by simp),
    forall_event_append.2 ⟨fun a e b hbytes => ?_, forall_event_cons.2 ⟨?_, forall_event_nil⟩⟩⟩⟩
  · obtain ⟨sent, unsent, -, rfl, hunsent⟩ := List.map_eq_append_iff.1 hbytes
    obtain ⟨v, _, -, rfl, -⟩ := List.map_eq_cons_iff.1 hunsent
    simpa [csStep, dcStep] using obeysBus_dataByte
  · simpa [csStep, dcStep] using obeysBus_release

/-- A single event outside a transaction. -/
theorem keepsBus_singleton (d : Line) {e : Event} (hcs : e ≠ .cs .released) (htx : ∀ v, e ≠ .tx v) :
    KeepsBus d [e] :=
  forall_event_cons.2 ⟨obeysBus_released hcs htx, forall_event_nil⟩

/-- Every item of the grammar obeys R85 from any level of `DC`. -/
theorem keepsBus_item (d : Line) {item : List Event} (h : TraceItem item) : KeepsBus d item := by
  cases h with
  | cmd v => exact keepsBus_cmdFrame d v
  | blk bs => exact keepsBus_blockFrame d bs
  | rst l => exact keepsBus_singleton d (by simp) (by simp)
  | bl l => exact keepsBus_singleton d (by simp) (by simp)
  | wait n => exact keepsBus_singleton d (by simp) (by simp)

/-- Every item takes `CS` from released to released. -/
theorem foldl_csStep_item {item : List Event} (h : TraceItem item) : item.foldl csStep .released = .released := by
  cases h with
  | blk bs => simp [csStep]
  | cmd | rst | bl | wait => rfl

/-! ## Whole traces -/

/-- A trace of whole frames ends with `CS` released. -/
theorem csAfter_framed {es : List Event} (h : Framed es) : csAfter es = .released := by
  induction h with
  | nil => rfl
  | snoc _ hitem ih =>
    rw [csAfter] at ih ⊢
    rw [List.foldl_append, ih, foldl_csStep_item hitem]

/-- After a list that obeys R85 and ends with `CS` released, another may follow. -/
theorem KeepsBus.append {d : Line} {es fs : List Event} (hes : KeepsBus d es) (hfs : KeepsBus (es.foldl dcStep d) fs)
    (hcs : es.foldl csStep .released = .released) : KeepsBus d (es ++ fs) := by
  refine forall_event_append.2 ⟨fun a e b h => (hes a e b h).within [] fs, fun a e b h => ?_⟩
  simpa [hcs] using (hfs a e b h).within es []

/-- A trace of whole frames obeys R85 from reset on. -/
theorem keepsBus_framed {es : List Event} (h : Framed es) : KeepsBus .undriven es := by
  induction h with
  | nil => exact forall_event_nil
  | snoc hes hitem ih => exact ih.append (keepsBus_item _ hitem) (csAfter_framed hes)

/-- Settles O55: the rules of `ObeysBus` at every event of the trace, and `CS` at its end. -/
theorem framedTracesKeepTheBusDiscipline : Obligations.FramedTracesKeepTheBusDiscipline := by
  intro es h
  refine ⟨csAfter_framed h, fun a b e hsplit => ?_⟩
  obtain ⟨outside, inside, command⟩ := keepsBus_framed h a e b hsplit
  exact ⟨outside, inside, command⟩

end Sys2Proof.Machine
end

section
/-! Proofs for `40_transport_framing.md`, part 3: where an operation stops because the spec gives it no meaning. -/

namespace Sys2Proof.Machine

/-! ## What the requests run once their checks pass -/

/-- The state after `WINDOW` (R131). -/
def State.windowed (s : State) : State :=
  { s with xs := winXs s.cfg, xe := winXe s.cfg, ys := winYs s.cfg, ye := winYe s.cfg }

/-- `WINDOW` where it fits. -/
theorem execWindow_fits {s : State} (hf : s.fault = none) (hw : windowFits s.cfg = true) :
    execWindow s = .next s.windowed := by
  rw [execWindow, whenLive_none hf, if_pos hw]
  rfl

theorem onlyWrites_windowed (s : State) : OnlyWrites [.window] s s.windowed := by
  constructor <;> simp [State.windowed]

/-- `WINDOW` where it does not fit (log 14). -/
theorem execWindow_not_fits {s : State} (hf : s.fault = none) (hw : ¬ windowFits s.cfg = true) :
    execWindow s = .refused .rConfig := by
  rw [execWindow, whenLive_none hf, if_neg hw]

/-- `UPDATE` in `Ready` is its steps (R138). -/
theorem execUpdate_ready {s : State} (hf : s.fault = none) (hp : s.phase = .ready) :
    execUpdate s = andThen (execWindow s) fun s => andThen (execCaset s) fun s => andThen (execRaset s) fun s =>
      andThen (execRamwr s) execStream := by
  rw [execUpdate, whenLive_none hf, inPhase_eq hp]

/-- `STREAM` of an allocated buffer (R137). -/
theorem execStream_allocated {s : State} {m : Memory} (hf : s.fault = none) (hm : s.fb = some m) :
    execStream s = andThen (sendFrame (blockFrame (payload s.cfg m)) { s with sp := 0 }) fun t =>
      .next { t with sp := s.cfg.fblen } := by
  rw [execStream, whenLive_none hf]
  split
  · next hnone => simp [hm] at hnone
  · next m' hm' =>
    obtain rfl : m' = m := Option.some.inj (hm'.symm.trans hm)
    rfl

/-- `STREAM` without a buffer (R43, log 13). -/
theorem execStream_unallocated {s : State} (hf : s.fault = none) (hfb : s.fb = none) :
    execStream s = .fault .bufferUnallocated := by
  rw [execStream, whenLive_none hf, hfb]

/-- `INITIALIZE` on a legal configuration with both lines is its steps (R151). -/
theorem execInitialise_legal {s : State} (hf : s.fault = none) (hp : s.phase = .uninitialized)
    (hcfg : configWF s.cfg = true) (hd : s.dcPresent = true) (hc : s.csPresent = true) :
    execInitialise s = initSequence s := by
  rw [execInitialise, whenLive_none hf, inPhase_eq hp, if_pos (by simp [hcfg, State.linesPresent, hd, hc])]

/-- The state in which `INITIALIZE` starts the table: after the reset pulse and the settle time (R153, R154). -/
def State.settled (s : State) : State :=
  { s.emitAll ((if s.rstPresent then resetPulse else []) ++ [.wait s.cfg.settleMs]) with phase := .runningInitTable }

theorem initSequence_live {s : State} (hf : s.fault = none) :
    initSequence s = andThen (execRuntable s.settled) initAfterTable := by
  rw [initSequence_eq, execResetpulse, whenLive_none hf, andThen_next, execSettle, whenLive_none (by simpa using hf),
    andThen_next]
  simp [State.settled, State.emit_eq, State.emitAll_eq]

/-- Reset pulse and settle time touch no line that a frame needs. -/
theorem onlyWrites_settled (s : State) : OnlyWrites [.phase, .rstLine, .trace] s s.settled := by
  unfold State.settled
  cases s.rstPresent <;> constructor <;> simp [resetPulse, dcStep, csStep, blStep]

/-! ## Stops at a frame (R80) -/

/-- The stop that any frame meets in `s`: a line is missing, or a transaction is open. -/
inductive StopsFrames (s : State) : Result → Prop where
  | noLines (h : s.dcPresent = false ∨ s.csPresent = false) : StopsFrames s (.refused .linesAbsent)
  | openTransaction (hd : s.dcPresent = true) (hc : s.csPresent = true) (ho : s.cs = .asserted) :
    StopsFrames s (.fault .transactionOpen)

section
variable {s : State} {r : Result}

/-- An operation that supplies no line leaves the stop as it is. -/
theorem OnlyWrites.stopsFrames {l : List Reg} {t : State} (w : OnlyWrites l s t) (hd : .dcPresent ∉ l)
    (hc : .csPresent ∉ l) (h : StopsFrames s r) : StopsFrames t r := by
  cases h with
  | noLines h => exact .noLines (by rwa [w.dcPresent hd, w.csPresent hc])
  | openTransaction hdc hcs ho =>
    exact .openTransaction ((w.dcPresent hd).trans hdc) ((w.csPresent hc).trans hcs) (w.cs.trans ho)

theorem sendFrame_stops (h : StopsFrames s r) (es : List Event) : sendFrame es s = r := by
  cases h with
  | noLines h => exact sendFrame_noLines h es
  | openTransaction hd hc ho => exact sendFrame_open hd hc ho es

/-- A stop ends the operation. -/
theorem andThen_stops (h : StopsFrames s r) {q : Result} (hq : q = r) (k : State → Result) : andThen q k = r := by
  subst hq
  cases h <;> rfl

theorem sendCmdArg_stops (h : StopsFrames s r) (op arg : Byte) : sendCmdArg op arg s = r :=
  andThen_stops h (sendFrame_stops h _) _

theorem sendAddress_stops (h : StopsFrames s r) (op : Byte) (a : Addr4) : sendAddress op a s = r := by
  have w : OnlyWrites [.addressScratch] s { s with addr := a } := by constructor <;> simp
  exact andThen_stops h (sendFrame_stops (w.stopsFrames (by simp) (by simp) h) _) _

theorem execColmod_stops (h : StopsFrames s r) (hf : s.fault = none) : execColmod s = r :=
  (whenLive_none hf _).trans (sendCmdArg_stops h _ _)

theorem execCaset_stops (h : StopsFrames s r) (hf : s.fault = none) : execCaset s = r :=
  (whenLive_none hf _).trans (sendAddress_stops h _ _)

/-- A record inside the table stops at its opcode. -/
theorem runRecord_stops (h : StopsFrames s r) {opc : Byte} {args : List Byte} {dly : Option Byte}
    (hle : s.tp + (2 + args.length + dly.isSome.toNat) ≤ s.cfg.tlen) : runRecord opc args dly s = r := by
  have hload : StopsFrames (loadScratch opc args dly s) r :=
    (onlyWrites_loadScratch opc args dly s).stopsFrames (by simp) (by simp) h
  rw [runRecord, if_neg (by omega), if_neg (by omega)]
  exact andThen_stops h (sendFrame_stops hload _) _

theorem exec_recInstr_stops (h : StopsFrames s r) (hf : s.fault = none) {opc : Byte} {args : List Byte}
    {dly : Option Byte} (hle : s.tp + (2 + args.length + dly.isSome.toNat) ≤ s.cfg.tlen) :
    exec (recInstr opc args dly) s = r := by
  cases dly <;> exact (whenLive_none hf _).trans (runRecord_stops h hle)

/-- A table that starts with a whole record stops at it. -/
theorem execRuntable_stops (h : StopsFrames s r) (hf : s.fault = none) (hr : ReachesAFrame s .runtable) :
    execRuntable s = r := by
  obtain ⟨⟨opc, args, dly⟩, rest, hwf, htable⟩ := hr
  have hlen : s.cfg.tlen = 2 + args.length + dly.isSome.toNat + rest.length := by
    simp [Config.tlen, htable, TableRecord.bytes, recordBytes_length]
  have hd : decodeRecord (s.cfg.initTable.drop 0) = .ok (recInstr opc args dly, rest) := by
    rw [List.drop_zero, htable]
    exact decodeRecord_bytes opc args rest dly hwf
  have h0 : StopsFrames { s with tp := 0 } r := (onlyWrites_tp s 0).stopsFrames (by simp) (by simp) h
  have hturn : tableTurn { s with tp := 0 } = r :=
    (tableTurn_ok hd).trans (exec_recInstr_stops h0 hf (by show 0 + _ ≤ s.cfg.tlen; omega))
  obtain ⟨n, hn⟩ : ∃ n, s.cfg.tlen = n + 1 := ⟨s.cfg.tlen - 1, by omega⟩
  rw [execRuntable, whenLive_none hf, hn, tableLoop]
  exact andThen_stops h hturn _

/-- Every operation that gets as far as a frame stops there. -/
theorem exec_stops (h : StopsFrames s r) (hf : s.fault = none) {i : Instr} (hi : ReachesAFrame s i) :
    exec i s = r := by
  have live := whenLive_none hf
  cases i with
  | tblRec opc args => exact exec_recInstr_stops (dly := none) h hf hi
  | tblRecD opc args dly =>
    have hle : s.tp + (3 + args.length) ≤ s.cfg.tlen := hi
    exact exec_recInstr_stops (dly := some dly) h hf (by simp; omega)
  | cmdw b => exact (live _).trans (sendFrame_stops h _)
  | datw b => exact (live _).trans (sendFrame_stops h _)
  | blkw bs => exact (live _).trans (sendFrame_stops h _)
  | update =>
    obtain ⟨hp, hw⟩ := hi
    have hw' : StopsFrames s.windowed r := (onlyWrites_windowed s).stopsFrames (by simp) (by simp) h
    rw [exec, execUpdate_ready hf hp, execWindow_fits hf hw, andThen_next]
    exact andThen_stops h (execCaset_stops hw' hf) _
  | caset => exact execCaset_stops h hf
  | raset => exact (live _).trans (sendAddress_stops h _ _)
  | ramwr => exact (live _).trans (sendFrame_stops h _)
  | colmod => exact execColmod_stops h hf
  | madctl =>
    obtain ⟨b, hb⟩ := hi
    rw [exec, execMadctl, live, hb]
    exact sendCmdArg_stops h _ _
  | invon =>
    have hinv : s.cfg.invert = true := hi
    rw [exec, execInvon, live, if_pos hinv]
    exact andThen_stops h (sendFrame_stops h _) _
  | runtable => exact execRuntable_stops h hf hi
  | stream =>
    obtain ⟨m, hm⟩ := hi
    rw [exec, execStream_allocated hf hm]
    exact andThen_stops h (sendFrame_stops ((onlyWrites_sp s 0).stopsFrames (by simp) (by simp) h) _) _
  | setrstpin | setdcpin | setblpin | setcspin | initialise | setpixel | getbuflen | resetpulse | settle
  | allocateBacklight | window | enc332 | enc565 | dec565 | expand332 | req565 => exact hi.elim

/-- The table, or the command after an empty one, stops at its first frame. -/
theorem tableAndAfter_stops (h : StopsFrames s r) (hf : s.fault = none)
    (ht : s.cfg.initTable = [] ∨ ReachesAFrame s .runtable) : andThen (execRuntable s) initAfterTable = r := by
  rcases ht with hempty | hr
  · have hend : s.cfg.tlen ≤ 0 := by simp [Config.tlen, hempty]
    have h0 : StopsFrames { s with tp := 0 } r := (onlyWrites_tp s 0).stopsFrames (by simp) (by simp) h
    rw [execRuntable, whenLive_none hf, tableLoop_end (s := { s with tp := 0 }) hend, andThen_next]
    exact andThen_stops h (execColmod_stops h0 hf) _
  · exact andThen_stops h (execRuntable_stops h hf hr) _

/-- The first frame of `INITIALIZE` comes after the reset pulse and the settle time. -/
theorem initSequence_stops (h : StopsFrames s r) (hf : s.fault = none)
    (ht : s.cfg.initTable = [] ∨ ReachesAFrame s .runtable) : initSequence s = r := by
  have w := onlyWrites_settled s
  rw [initSequence_live hf]
  refine tableAndAfter_stops (w.stopsFrames (by simp) (by simp) h) ((w.fault (by simp)).trans hf) ?_
  simpa only [ReachesAFrame, w.cfg] using ht

end

/-! ## No buffer, no window -/

/-- `SETPIXEL` on the panel without a buffer (R43). -/
theorem execSetpixel_unallocated {s : State} (hf : s.fault = none) (hp : s.phase = .ready) (hfb : s.fb = none)
    {x y : Int} (hxy : onPanel s.cfg x y = true) (color : Rgb) :
    execSetpixel x y color s = .fault .bufferUnallocated := by
  rw [execSetpixel, whenLive_none hf, inPhase_eq hp, if_pos hxy, fbWrite, hfb]

/-- An operation that sets no fault and supplies no line keeps a state that can send. -/
theorem OnlyWrites.canSend {l : List Reg} {s t : State} (w : OnlyWrites l s t)
    (hl : ∀ r ∈ [Reg.fault, .dcPresent, .csPresent], r ∉ l) (h : s.CanSend) : t.CanSend where
  live := (w.fault (hl _ (by simp))).trans h.live
  dcLine := (w.dcPresent (hl _ (by simp))).trans h.dcLine
  csLine := (w.csPresent (hl _ (by simp))).trans h.csLine
  released := w.cs.trans h.released

theorem execCaset_answers {s : State} (h : s.CanSend) : ∃ t, execCaset s = .next t :=
  ⟨_, (whenLive_none h.live _).trans (sendAddress_next h _ _)⟩

theorem execRaset_answers {s : State} (h : s.CanSend) : ∃ t, execRaset s = .next t :=
  ⟨_, (whenLive_none h.live _).trans (sendAddress_next h _ _)⟩

theorem execRamwr_answers {s : State} (h : s.CanSend) : ∃ t, execRamwr s = .next t :=
  ⟨_, (whenLive_none h.live _).trans (sendFrame_cmd h _)⟩

/-- `UPDATE` without a buffer sends its three commands and stops in `STREAM`. -/
theorem execUpdate_unallocated {s : State} (h : s.CanSend) (hp : s.phase = .ready) (hw : windowFits s.cfg = true)
    (hfb : s.fb = none) : execUpdate s = .fault .bufferUnallocated := by
  have w := (onlyWrites_windowed s).mono (l' := [.window, .addressScratch, .dcLine, .trace]) (by simp)
  obtain ⟨t, ht⟩ := execCaset_answers (w.canSend (by simp) h)
  have wt := w.trans ((onlyWrites_execCaset ht).mono (by simp))
  obtain ⟨u, hu⟩ := execRaset_answers (wt.canSend (by simp) h)
  have wu := wt.trans ((onlyWrites_execRaset hu).mono (by simp))
  obtain ⟨v, hv⟩ := execRamwr_answers (wu.canSend (by simp) h)
  have wv := wu.trans ((onlyWrites_execRamwr hv).mono (by simp))
  calc execUpdate s
    _ = execStream v := by
      rw [execUpdate_ready h.live hp, execWindow_fits h.live hw, andThen_next, ht, andThen_next, hu, andThen_next, hv,
        andThen_next]
    _ = .fault .bufferUnallocated :=
      execStream_unallocated (wv.canSend (by simp) h).live ((wv.fb (by simp)).trans hfb)

/-- Settles O51: the stop at a frame of each operation, the stops without a buffer, and the window that does not fit. -/
theorem operationsStopWhereTheSpecGivesNoMeaning : Obligations.OperationsStopWhereTheSpecGivesNoMeaning := by
  intro s hf
  refine ⟨fun i hi => ⟨fun hlines => exec_stops (.noLines hlines) hf hi,
      fun hd hc ho => exec_stops (.openTransaction hd hc ho) hf hi⟩,
    fun hp hcfg hd hc ho ht => ?_, execStream_unallocated hf, fun hfb h hp hw => execUpdate_unallocated h hp hw hfb,
    fun x y c hfb hp hx hy => execSetpixel_unallocated hf hp hfb (onPanel_natCast hx hy) c, fun hbad => ?_⟩
  · exact (execInitialise_legal hf hp hcfg hd hc).trans (initSequence_stops (.openTransaction hd hc ho) hf ht)
  · have hw : ¬ windowFits s.cfg = true := by
      rw [windowFits_iff]
      omega
    refine ⟨execWindow_not_fits hf hw, fun hp => ?_⟩
    exact (execUpdate_ready hf hp).trans (by rw [execWindow_not_fits hf hw, andThen_refused])

end Sys2Proof.Machine
end

section
/-! Proofs for `41_command_table.md`, part 1: one record, as it is read from the table and as it is run. -/

namespace Sys2Proof.Machine

/-! ## `FETCH` by table index (R91) -/

/-- A read fails exactly where it does not answer a record. -/
theorem decodeRecord_error_iff_not_ok {bs : List Byte} :
    (∃ e, decodeRecord bs = .error e) ↔ ¬ ∃ rest i, decodeRecord bs = .ok (i, rest) := by
  cases decodeRecord bs with
  | error e => simp
  | ok r => simp [Prod.ext_iff]

/-- A read at an index fails exactly where fewer than `RECLEN` bytes are left. -/
theorem decodeRecord_drop_error_iff {t : List Byte} {p : Nat} (hp : p ≤ t.length) :
    (∃ e, decodeRecord (t.drop p) = .error e) ↔ t.length < p + recLen (t.getD (p + 1) 0) := by
  simp [decodeRecord_error_iff_not_ok, decodeRecord_drop_leaves_iff hp]

/-- The bytes of a record after its header are its arguments, its delay byte and what follows the record. -/
theorem recordBytes_getElem?_afterHeader (opc : Byte) (args rest : List Byte) (dly : Option Byte) (k : Nat) :
    (recordBytes opc args dly ++ rest)[2 + k]? = (args ++ (dly.toList ++ rest))[k]? := by
  rw [Nat.add_comm, recordBytes, ← List.append_assoc]
  rfl

/-- Settles O5: the length check by index, and the bytes of the record that was read, found again in the table. -/
theorem fetchReadsTheRecordByIndex : Obligations.FetchReadsTheRecordByIndex := by
  intro t p hp
  refine ⟨?_, fun i rest hd => ?_⟩
  · rw [decodeRecord_drop_error_iff hp.le, recLen, hdrTail_eq]
    by_cases hhdr : p + 1 < t.length
    · simp only [List.getElem?_eq_getElem hhdr, List.getD_eq_getElem t 0 hhdr, Option.some.injEq, exists_eq_left']
      omega
    · rw [List.getElem?_eq_none (by omega)]
      simp only [reduceCtorEq, false_and, exists_false, or_false]
      omega
  · obtain ⟨opc, hdr, args, dly, hbytes, rfl, -, hhdr, hargs, hdly, -⟩ := decodeRecord_ok hd
    have hat (k : Nat) : t[p + k]? = (recordBytes opc args dly ++ rest)[k]? := by
      rw [← List.getElem?_drop, hbytes]
    have hafter (k : Nat) : t[p + 2 + k]? = (args ++ (dly.toList ++ rest))[k]? := by
      rw [Nat.add_assoc, hat, recordBytes_getElem?_afterHeader]
    have hhdrAt : t[p + 1]? = some hdr := by rw [← List.getElem?_drop, hhdr]
    refine ⟨opc, hdr, args, hat 0, hhdrAt, hargs, fun k hk => ?_, fun hlt => ?_, fun hge => ?_⟩
    · rw [hafter, List.getElem?_append_left hk]
    · cases dly with
      | none => rfl
      | some d => simp at hdly; omega
    · cases dly with
      | none => simp at hdly; omega
      | some d => exact ⟨d, by simp [hafter], rfl⟩

/-! ## A record that is run (R92, R93) -/

/-- A record without a fault set goes through the checks of `FETCH` and its frames. -/
theorem exec_recInstr_live {s : State} (h : s.fault = none) (opc : Byte) (args : List Byte) (dly : Option Byte) :
    exec (recInstr opc args dly) s = runRecord opc args dly s := by
  cases dly <;> exact whenLive_none h _

/-- Settles O16: a record without a delay that lies inside the table. -/
theorem recordSendsOpcodeThenArguments : Obligations.RecordSendsOpcodeThenArguments := by
  intro opc args s h hle
  simpa [recInstr, recordWait] using
    (exec_recInstr_live h.live opc args none).trans (runRecord_next h opc args none hle)

theorem delayMs_eq (dly : Byte) : delayMs dly = if dly.toNat = 255 then 500 else dly.toNat := by
  simp [delayMs, ← BitVec.toNat_inj]

/-- Settles O17: a record with a delay that lies inside the table. -/
theorem recordWithDelayWaitsAfterItsBytes : Obligations.RecordWithDelayWaitsAfterItsBytes := by
  intro opc args dly s h hle
  have hlen : 3 + args.length = 2 + args.length + 1 := by omega
  rw [hlen] at hle ⊢
  simpa [recInstr, recordWait, delayMs_eq] using
    (exec_recInstr_live h.live opc args (some dly)).trans (runRecord_next h opc args (some dly) hle)

/-- Settles O18: both kinds of record are one that does not fit. -/
theorem recordPastTheTableRaisesFTable : Obligations.RecordPastTheTableRaisesFTable := by
  intro opc args dly s hf
  refine ⟨fun hlt => ?_, fun hlt => ?_⟩
  · obtain ⟨t, hrun, ht⟩ := runRecord_off hf opc args none hlt
    exact ⟨t, (exec_recInstr_live hf opc args none).trans hrun, ht⟩
  · obtain ⟨t, hrun, ht⟩ := runRecord_off hf opc args (some dly) (by simp; omega)
    exact ⟨t, (exec_recInstr_live hf opc args (some dly)).trans hrun, ht⟩

end Sys2Proof.Machine
end

section
/-! Proofs for `41_command_table.md`, part 2: one turn of the interpreter's loop, and a word that is placed for the next
step. -/

namespace Sys2Proof.Machine

/-- A step runs the first item of the agenda with the rest left on it. -/
theorem step_cons {s : State} {it : Item} {rest : List Item} (h : s.agenda = it :: rest) :
    step s = runItem it { s with agenda := rest } := by
  rw [step, takeItem, h]

theorem step_tableStep {s : State} {rest : List Item} (h : s.agenda = .tableStep :: rest) :
    step s = tableTurn { s with agenda := rest } := step_cons h

/-- A turn at a record that does not read raises `F_TABLE(TP)`. -/
theorem tableTurn_error {s : State} {e : Reject} (hf : s.fault = none) (hp : s.tp < s.cfg.tlen)
    (hd : decodeRecord (s.cfg.initTable.drop s.tp) = .error e) :
    ∃ t, tableTurn s = .next t ∧ t = { s with fault := some (.fTable s.tp), scratch := t.scratch } := by
  rw [tableTurn, whenLive_none hf, if_pos hp, recordAtTp_error hd]
  exact raiseCutOff_next hf _

/-- Settles O8: the step is a turn of the loop on the rest of the agenda. -/
theorem tableTurnRunsTheRecordAtTp : Obligations.TableTurnRunsTheRecordAtTp := by
  intro s rest ha
  rw [step_tableStep ha]
  exact ⟨fun _ _ hd => tableTurn_ok hd, fun hend => tableTurn_end hend, fun _ hf hp hd => tableTurn_error hf hp hd⟩

/-! ## Placing (log 2) -/

/-- The bytes from the placed record on are the record's. -/
theorem drop_placeRecord (t : List Byte) (p : Nat) (bs : List Byte) : (placeRecord t p bs).drop p = bs := by
  apply List.drop_left'
  simp

/-- Bits of a record decode by reading one record. -/
theorem decode_record_eq_ok {bs : List Byte} {i : Instr} (h : decode (.record bs) = .ok i) :
    ∃ rest, decodeRecord bs = .ok (i, rest) := by
  rw [decode] at h
  cases hd : decodeRecord bs with
  | error e => simp [hd, Except.map] at h
  | ok r =>
    obtain ⟨j, rest⟩ := r
    simp only [hd, Except.map, Except.ok.injEq] at h
    exact ⟨rest, by rw [h]⟩

/-- A placed record is the one the next step runs, on the table it was placed in. -/
theorem step_placeCode_record {s : State} {bs rest : List Byte} {i : Instr} (h : decodeRecord bs = .ok (i, rest)) :
    step (placeCode s (.record bs)) =
      exec i { s with cfg := { s.cfg with initTable := placeRecord s.cfg.initTable s.tp bs } } :=
  have hread : decodeRecord ((placeRecord s.cfg.initTable s.tp bs).drop s.tp) = .ok (i, rest) := by
    rw [drop_placeRecord, h]
  (step_tableStep rfl).trans (tableTurn_ok hread)

/-- An issued operation is the one the next step runs. -/
theorem step_issue {s : State} {c : Code} {i : Instr} (h : decode c = .ok i) :
    step { s with agenda := .issue c :: s.agenda } = exec i s := by
  rw [step_cons rfl, runItem, h]

/-- A record is one of the two record instructions. -/
theorem recInstr_cases (opc : Byte) (args : List Byte) (dly : Option Byte) :
    recInstr opc args dly = .tblRec opc args ∨ ∃ d, recInstr opc args dly = .tblRecD opc args d := by
  cases dly with
  | none => exact .inl rfl
  | some d => exact .inr ⟨d, rfl⟩

theorem decodeTableWord_eq_some {nbits w : Nat} {i : Instr} (h : decodeTableWord nbits w = some i) :
    decode (tableWordCode nbits w) = .ok i := by
  unfold decodeTableWord at h
  split at h
  · next hd => rw [hd, Option.some.inj h]
  · cases h

/-- Settles O9: a record is found again at `TP`, anything else at the front of the agenda. -/
theorem placedWordIsWhatTheNextStepRuns : Obligations.PlacedWordIsWhatTheNextStepRuns := by
  intro s nbits w i h
  have hd := decodeTableWord_eq_some h
  unfold State.withFetchWord
  cases hc : tableWordCode nbits w with
  | record bs =>
    rw [hc] at hd
    obtain ⟨rest, hread⟩ := decode_record_eq_ok hd
    obtain ⟨opc, -, args, dly, -, hi, -⟩ := decodeRecord_ok hread
    refine ⟨_, step_placeCode_record hread, fun hrec hrecD => ?_⟩
    rcases recInstr_cases opc args dly with hr | ⟨d, hr⟩
    · exact absurd (hi.trans hr) (hrec opc args)
    · exact absurd (hi.trans hr) (hrecD opc args d)
  | request | frame | command | internal | function | unlisted =>
    exact ⟨s.cfg.initTable, step_issue (hc ▸ hd), fun _ _ => rfl⟩

end Sys2Proof.Machine
end

section
/-! Proofs for `41_command_table.md`, part 3: the interpreter's loop over the records of a table (R94, R96). -/

namespace Sys2Proof.Machine

/-! ## The state after a record, and after several -/

/-- The state after the record `r` (R92, R93). -/
def State.afterRecord (s : State) (r : TableRecord) : State :=
  { s with
    trace := s.trace ++ r.events
    dc := .driven .high
    cs := .released
    tp := s.tp + r.bytes.length
    scratch := ⟨r.opc, BitVec.ofNat 7 r.args.length, r.dly.isSome, r.dly.getD s.scratch.dly⟩ }

/-- The state after the records `rs`, in order. -/
def State.afterRecords (s : State) (rs : List TableRecord) : State := rs.foldl State.afterRecord s

theorem TableRecord.events_eq (r : TableRecord) :
    r.events = cmdFrame r.opc ++ r.args.flatMap dataFrame ++ recordWait r.dly := by
  unfold TableRecord.events
  cases r.dly <;> rfl

theorem TableRecord.bytes_length (r : TableRecord) : r.bytes.length = 2 + r.args.length + r.dly.isSome.toNat :=
  recordBytes_length ..

theorem TableRecord.events_length (r : TableRecord) : r.events.length = r.eventCount := by
  rw [r.events_eq, List.length_append, List.length_append, dataFrames_length]
  unfold TableRecord.eventCount
  cases r.dly <;> simp [cmdFrame, recordWait]

theorem tableEvents_length (rs : List TableRecord) :
    (tableEvents rs).length = (rs.map TableRecord.eventCount).sum := by
  simp [tableEvents, List.length_flatMap, TableRecord.events_length]

/-- A table of records has at least as many bytes as records, so that its length is turns enough. -/
theorem length_le_tableBytes_length (rs : List TableRecord) : rs.length ≤ (tableBytes rs).length := by
  induction rs with
  | nil => simp
  | cons r rs ih =>
    have hr := r.bytes_length
    simp only [tableBytes, List.flatMap_cons, List.length_append, List.length_cons] at ih ⊢
    omega

theorem State.CanSend.afterRecord {s : State} (h : s.CanSend) (r : TableRecord) : (s.afterRecord r).CanSend :=
  ⟨h.live, h.dcLine, h.csLine, rfl⟩

theorem State.CanSend.afterRecords {s : State} (h : s.CanSend) (rs : List TableRecord) :
    (s.afterRecords rs).CanSend := by
  induction rs generalizing s with
  | nil => exact h
  | cons r rs ih => exact ih (h.afterRecord r)

/-- What several records leave: their events, `TP` moved past their bytes, `DC` high if there was one, and nothing else
but the scratch. -/
theorem State.afterRecords_eq {s : State} (h : s.CanSend) (rs : List TableRecord) :
    s.afterRecords rs = { s with
      trace := s.trace ++ tableEvents rs
      dc := if rs = [] then s.dc else .driven .high
      tp := s.tp + (tableBytes rs).length
      scratch := (s.afterRecords rs).scratch } := by
  induction rs generalizing s with
  | nil => simp [State.afterRecords, tableEvents, tableBytes]
  | cons r rs ih =>
    have hcons : s.afterRecords (r :: rs) = (s.afterRecord r).afterRecords rs := rfl
    rw [hcons, ih (h.afterRecord r)]
    simp [State.afterRecord, tableEvents, tableBytes, h.released, Nat.add_assoc]

/-! ## Turns of the loop -/

/-- A turn at a whole record runs it. -/
theorem tableTurn_record {s : State} (h : s.CanSend) {r : TableRecord} (hr : r.wf) {rest : List Byte}
    (htable : s.cfg.initTable.drop s.tp = r.bytes ++ rest) : tableTurn s = .next (s.afterRecord r) := by
  have hd : decodeRecord (s.cfg.initTable.drop s.tp) = .ok (recInstr r.opc r.args r.dly, rest) := by
    rw [htable]
    exact decodeRecord_bytes r.opc r.args rest r.dly hr
  have hlen := congrArg List.length htable
  rw [List.length_drop, List.length_append, r.bytes_length] at hlen
  have hfits : s.tp + (2 + r.args.length + r.dly.isSome.toNat) ≤ s.cfg.tlen := by
    unfold Config.tlen
    omega
  rw [tableTurn_ok hd, exec_recInstr_live h.live, runRecord_next h _ _ _ hfits, ← r.events_eq, ← r.bytes_length]
  rfl

/-- As many turns as there are records run them, and the loop goes on after them. -/
theorem tableLoop_records {s : State} (h : s.CanSend) {rs : List TableRecord} (hwf : ∀ r ∈ rs, r.wf)
    {rest : List Byte} (htable : s.cfg.initTable.drop s.tp = tableBytes rs ++ rest) (n : Nat) :
    tableLoop (rs.length + n) s = tableLoop n (s.afterRecords rs) := by
  induction rs generalizing s with
  | nil => rw [List.length_nil, Nat.zero_add]; rfl
  | cons r rs ih =>
    rw [List.forall_mem_cons] at hwf
    obtain ⟨hr, hrs⟩ := hwf
    have hfirst : s.cfg.initTable.drop s.tp = r.bytes ++ (tableBytes rs ++ rest) := by
      rw [htable, tableBytes, List.flatMap_cons, List.append_assoc]
      rfl
    have hrest : (s.afterRecord r).cfg.initTable.drop (s.afterRecord r).tp = tableBytes rs ++ rest := by
      show s.cfg.initTable.drop (s.tp + r.bytes.length) = _
      rw [← List.drop_drop, hfirst, List.drop_left]
    have hturns : (r :: rs).length + n = (rs.length + n) + 1 := by simp only [List.length_cons]; omega
    rw [hturns, tableLoop, tableTurn_record h hr hfirst, andThen_next]
    exact ih (h.afterRecord r) hrs hrest

/-! ## `RUNTABLE` -/

/-- Sending does not look at `TP`. -/
theorem canSend_tp {s : State} (h : s.CanSend) (n : Nat) : State.CanSend { s with tp := n } :=
  ⟨h.live, h.dcLine, h.csLine, h.released⟩

section
variable {s : State} {rs : List TableRecord}

/-- The loop of `RUNTABLE` on a table that starts with the records `rs`: after them it goes on with the turns left. -/
theorem execRuntable_records (h : s.CanSend) (hwf : ∀ r ∈ rs, r.wf) {rest : List Byte}
    (htable : s.cfg.initTable = tableBytes rs ++ rest) :
    execRuntable s = tableLoop (s.cfg.tlen - rs.length) (State.afterRecords { s with tp := 0 } rs) := by
  have hlen : rs.length ≤ s.cfg.tlen := by
    have := length_le_tableBytes_length rs
    rw [Config.tlen, htable, List.length_append]
    omega
  rw [execRuntable, whenLive_none h.live, ← tableLoop_records (canSend_tp h 0) hwf htable, Nat.add_sub_cancel' hlen]

/-- The state after the records of a table, run from index 0. -/
theorem afterRecords_fromStart (h : s.CanSend) :
    State.afterRecords { s with tp := 0 } rs = { s with
      trace := s.trace ++ tableEvents rs
      dc := if rs = [] then s.dc else .driven .high
      tp := (tableBytes rs).length
      scratch := (State.afterRecords { s with tp := 0 } rs).scratch } := by
  rw [State.afterRecords_eq (canSend_tp h 0)]
  simp

/-- `RUNTABLE` on a table of whole records runs them all. -/
theorem execRuntable_wellFormed (h : s.CanSend) (hwf : ∀ r ∈ rs, r.wf) (htable : s.cfg.initTable = tableBytes rs) :
    execRuntable s = .next (State.afterRecords { s with tp := 0 } rs) := by
  rw [execRuntable_records h hwf (rest := []) (by rw [htable, List.append_nil])]
  apply tableLoop_end
  rw [afterRecords_fromStart h, Config.tlen, htable]

end

/-- Settles O19: `RUNTABLE` is the records one after the other. -/
theorem runtableRunsEveryRecordInOrder : Obligations.RuntableRunsEveryRecordInOrder := by
  intro rs s h hwf htable
  have hrun := execRuntable_wellFormed h hwf htable
  have hafter := afterRecords_fromStart (rs := rs) h
  generalize State.afterRecords { s with tp := 0 } rs = t at hrun hafter
  refine ⟨t, hrun, ?_⟩
  rw [hafter, ← tableEvents_length]
  simp [Config.tlen, htable]

/-- Settles O20: after the records before the bad one, the turn at it raises the fault and the turns left do nothing. -/
theorem runtableStopsAtTheRecordThatDoesNotFit : Obligations.RuntableStopsAtTheRecordThatDoesNotFit := by
  intro rs bad e s h hwf htable hbad hd
  have hrun := execRuntable_records h hwf htable
  have hcan := (canSend_tp h 0).afterRecords rs
  have hafter := afterRecords_fromStart (rs := rs) h
  generalize State.afterRecords { s with tp := 0 } rs = u at hrun hcan hafter
  have hcfg : u.cfg = s.cfg := by rw [hafter]
  have htp : u.tp = (tableBytes rs).length := by rw [hafter]
  have hlen : s.cfg.tlen = (tableBytes rs).length + bad.length := by rw [Config.tlen, htable, List.length_append]
  have hbadLen : 0 < bad.length := List.length_pos_of_ne_nil hbad
  have hrs := length_le_tableBytes_length rs
  obtain ⟨t, hturn, ht⟩ := tableTurn_error (s := u) (e := e) hcan.live (by rw [htp, hcfg]; omega)
    (by rw [htp, hcfg, htable, List.drop_left, hd])
  obtain ⟨n, hn⟩ : ∃ n, s.cfg.tlen - rs.length = n + 1 := ⟨s.cfg.tlen - rs.length - 1, by omega⟩
  have hfault : t.fault = some (.fTable u.tp) := by rw [ht]
  rw [hn, tableLoop, hturn, andThen_next, tableLoop_fault hfault] at hrun
  refine ⟨t, hrun, ?_⟩
  rw [ht, hafter]
  simp

/-! ## The loop turn by turn (D31) -/

/-- Turns taken from the agenda one by one are the loop. -/
theorem steps_tableSteps (n : Nat) (s : State) :
    steps n (s.withAgenda (List.replicate n .tableStep)) = tableLoop n (s.withAgenda []) := by
  induction n generalizing s with
  | zero => rfl
  | succ n ih =>
    have hstep : step (s.withAgenda (List.replicate (n + 1) .tableStep)) =
        tableTurn (s.withAgenda (List.replicate n .tableStep)) := step_tableStep rfl
    rw [steps, hstep, tableLoop, ignoresAgenda_tableTurn, ignoresAgenda_tableTurn]
    cases tableTurn s with
    | next t => exact ih t
    | fault f => rfl
    | refused q => rfl

/-- Settles O60: both sides are the loop, which has nothing left to do after the last record. -/
theorem runtableIsItsTurns : Obligations.RuntableIsItsTurns := by
  intro s rs h hagenda hwf htable
  have hnone : State.withAgenda [] { s with tp := 0 } = { s with tp := 0 } := by rw [State.withAgenda, ← hagenda]
  have hturns : tableLoop rs.length { s with tp := 0 } = .next (State.afterRecords { s with tp := 0 } rs) :=
    tableLoop_records (canSend_tp h 0) hwf (rest := []) (by rw [List.append_nil]; exact htable) 0
  calc steps rs.length { s with tp := 0, agenda := List.replicate rs.length .tableStep }
    _ = tableLoop rs.length (State.withAgenda [] { s with tp := 0 }) := steps_tableSteps rs.length { s with tp := 0 }
    _ = .next (State.afterRecords { s with tp := 0 } rs) := by rw [hnone, hturns]
    _ = exec .runtable s := (execRuntable_wellFormed h hwf htable).symm

end Sys2Proof.Machine
end

section
/-! Proofs for `42_pixel_codec.md`, part 1: the codec functions as the rules write them, and the laws between them. -/

namespace Sys2Proof

/-! ## Shifts and masks as numbers -/

/-- A field shifted up, where nothing falls off the top. -/
theorem toNat_shiftLeft_of_lt {n : Nat} {a : BitVec n} {k : Nat} (ha : a.toNat * 2 ^ k < 2 ^ n) :
    (a <<< k).toNat = a.toNat * 2 ^ k := by
  rw [BitVec.toNat_shiftLeft, Nat.shiftLeft_eq, Nat.mod_eq_of_lt ha]

/-- A field shifted above a smaller one: the two do not meet, so `|` adds. -/
theorem toNat_shiftLeft_or {n : Nat} {a b : BitVec n} {k : Nat} (ha : a.toNat * 2 ^ k < 2 ^ n)
    (hb : b.toNat < 2 ^ k) : ((a <<< k) ||| b).toNat = a.toNat * 2 ^ k + b.toNat := by
  rw [BitVec.toNat_or, toNat_shiftLeft_of_lt ha, ← Nat.shiftLeft_eq, Nat.shiftLeft_add_eq_or_of_lt hb]

theorem toNat_ushiftRight_div {n : Nat} (a : BitVec n) (k : Nat) : (a >>> k).toNat = a.toNat / 2 ^ k := by
  rw [BitVec.toNat_ushiftRight, Nat.shiftRight_eq_div_pow]

theorem toNat_and_seven (v : Byte) : (v &&& 7).toNat = v.toNat % 8 :=
  (BitVec.toNat_and v 7).trans (Nat.and_two_pow_sub_one_eq_mod v.toNat 3)

theorem toNat_and_three (v : Byte) : (v &&& 3).toNat = v.toNat % 4 :=
  (BitVec.toNat_and v 3).trans (Nat.and_two_pow_sub_one_eq_mod v.toNat 2)

/-- A byte keeps its value in a half. -/
theorem toNat_setWidth_half (v : Byte) : (v.setWidth 16).toNat = v.toNat :=
  BitVec.toNat_setWidth_of_le (by decide)

end Sys2Proof

namespace Sys2Proof.Machine

/-! ## The packings (R111 to R113) -/

/-- `ENC332` in the shift form of R111. -/
theorem enc332_eq_shifts (c : Rgb) :
    enc332 c = ((c.r >>> 5) <<< 5) ||| ((c.g >>> 5) <<< 2) ||| (c.b >>> 6) := by
  have hr : (c.r >>> 5).toNat = c.r.toNat / 32 := toNat_ushiftRight_div c.r 5
  have hg : (c.g >>> 5).toNat = c.g.toNat / 32 := toNat_ushiftRight_div c.g 5
  have hb : (c.b >>> 6).toNat = c.b.toNat / 64 := toNat_ushiftRight_div c.b 6
  have hgb : (((c.g >>> 5) <<< 2) ||| (c.b >>> 6)).toNat = c.g.toNat / 32 * 2 ^ 2 + c.b.toNat / 64 := by
    rw [toNat_shiftLeft_or (by omega) (by omega), hg, hb]
  apply BitVec.eq_of_toNat_eq
  rw [BitVec.or_assoc, toNat_shiftLeft_or (by omega) (by omega), hgb, hr, enc332_toNat]
  omega

/-- `ENC565` in the shift form of R112. -/
theorem enc565_eq_shifts (c : Rgb) :
    enc565 c = ((c.r >>> 3).setWidth 16 <<< 11) ||| ((c.g >>> 2).setWidth 16 <<< 5) ||| (c.b >>> 3).setWidth 16 := by
  have hr : ((c.r >>> 3).setWidth 16).toNat = c.r.toNat / 8 :=
    (toNat_setWidth_half _).trans (toNat_ushiftRight_div c.r 3)
  have hg : ((c.g >>> 2).setWidth 16).toNat = c.g.toNat / 4 :=
    (toNat_setWidth_half _).trans (toNat_ushiftRight_div c.g 2)
  have hb : ((c.b >>> 3).setWidth 16).toNat = c.b.toNat / 8 :=
    (toNat_setWidth_half _).trans (toNat_ushiftRight_div c.b 3)
  have hgb : (((c.g >>> 2).setWidth 16 <<< 5) ||| (c.b >>> 3).setWidth 16).toNat =
      c.g.toNat / 4 * 2 ^ 5 + c.b.toNat / 8 := by
    rw [toNat_shiftLeft_or (by omega) (by omega), hg, hb]
  apply BitVec.eq_of_toNat_eq
  rw [BitVec.or_assoc, toNat_shiftLeft_or (by omega) (by omega), hgb, hr, enc565_toNat]
  omega

/-- The red channel survives the packing in its top 5 bits. -/
theorem dec565r_enc565 (c : Rgb) : dec565r (enc565 c) = c.r.extractLsb 7 3 := by
  apply BitVec.eq_of_toNat_eq
  rw [dec565r_toNat, enc565_toNat, toNat_extract]
  omega

/-- The green channel survives the packing in its top 6 bits. -/
theorem dec565g_enc565 (c : Rgb) : dec565g (enc565 c) = c.g.extractLsb 7 2 := by
  apply BitVec.eq_of_toNat_eq
  rw [dec565g_toNat, enc565_toNat, toNat_extract]
  omega

/-- The blue channel survives the packing in its top 5 bits. -/
theorem dec565b_enc565 (c : Rgb) : dec565b (enc565 c) = c.b.extractLsb 7 3 := by
  apply BitVec.eq_of_toNat_eq
  rw [dec565b_toNat, enc565_toNat, toNat_extract]
  omega

/-- A colour built from the fields of a half, with zeros below them, packs to that half (V3). -/
theorem enc565_of_fields (p : Half) : enc565 ⟨dec565r p ++ 0#3, dec565g p ++ 0#2, dec565b p ++ 0#3⟩ = p := by
  have hr : (dec565r p ++ 0#3 : Byte).toNat = p.toNat / 2048 * 8 := by
    rw [toNat_append', dec565r_toNat]; rfl
  have hg : (dec565g p ++ 0#2 : Byte).toNat = p.toNat / 32 % 64 * 4 := by
    rw [toNat_append', dec565g_toNat]; rfl
  have hb : (dec565b p ++ 0#3 : Byte).toNat = p.toNat % 32 * 8 := by
    rw [toNat_append', dec565b_toNat]; rfl
  apply BitVec.eq_of_toNat_eq
  rw [enc565_toNat, hr, hg, hb]
  omega

/-- Settles O21: the packing in shift form. -/
theorem enc332PacksTheTopBits : Obligations.Enc332PacksTheTopBits := by
  intro r g b s
  rw [← enc332_eq_shifts ⟨r, g, b⟩]
  rfl

/-- Settles O22: the packing in shift form, and the two bytes of a half. -/
theorem enc565PacksTheTopBits : Obligations.Enc565PacksTheTopBits := by
  intro r g b s
  refine ⟨enc565 ⟨r, g, b⟩, rfl, enc565_eq_shifts _, hi8_append_lo8 _, fun cfg hstd => ?_⟩
  rw [pixelBytes, hstd]

/-- Settles O23: the fields as numbers, and each channel's top bits through the packing. -/
theorem dec565SplitsAndUndoesEnc565 : Obligations.Dec565SplitsAndUndoesEnc565 := by
  intro p c s
  refine ⟨⟨_, _, _, rfl, dec565r_toNat p, dec565g_toNat p, dec565b_toNat p⟩, ?_⟩
  rw [← dec565r_enc565, ← dec565g_enc565, ← dec565b_enc565]
  rfl

/-! ## The expansion (R114 to R117) -/

/-- Colours with equal channel values are equal. -/
theorem rgb_ext_toNat {c d : Rgb} (hr : c.r.toNat = d.r.toNat) (hg : c.g.toNat = d.g.toNat)
    (hb : c.b.toNat = d.b.toNat) : c = d := by
  obtain ⟨r, g, b⟩ := c
  obtain ⟨r', g', b'⟩ := d
  congr 1
  · exact BitVec.eq_of_toNat_eq hr
  · exact BitVec.eq_of_toNat_eq hg
  · exact BitVec.eq_of_toNat_eq hb

/-- The law of R116: whatever the fill, the stored bits come back. -/
@[simp] theorem enc332_expand332 (cfg : Config) (v : Byte) : enc332 (expand332 cfg v) = v := by
  apply BitVec.eq_of_toNat_eq
  rw [enc332_toNat, expand332_r_toNat, expand332_g_toNat, expand332_b_toNat]
  omega

/-- Without rows every byte is filled with zeros (R114, D6). -/
theorem fillOf_default {cfg : Config} (h : cfg.expandFill = []) (v : Byte) : fillOf cfg v = ⟨0, 0, 0⟩ := by
  rw [fillOf, h]
  rfl

/-- The default expansion as numbers: the stored bits on top of zeros. -/
theorem expand332_default_toNat {cfg : Config} (h : cfg.expandFill = []) (v : Byte) :
    (expand332 cfg v).r.toNat = v.toNat / 32 * 2 ^ 5 ∧ (expand332 cfg v).g.toNat = v.toNat / 4 % 8 * 2 ^ 5 ∧
      (expand332 cfg v).b.toNat = v.toNat % 4 * 2 ^ 6 := by
  rw [expand332_r_toNat, expand332_g_toNat, expand332_b_toNat, fillOf_default h]
  exact ⟨rfl, rfl, rfl⟩

/-- The stored bits of one byte as the rules cut them out. -/
theorem storedBits_toNat (v : Byte) :
    (v >>> 5).toNat = v.toNat / 32 ∧ ((v >>> 2) &&& 7).toNat = v.toNat / 4 % 8 ∧ (v &&& 3).toNat = v.toNat % 4 :=
  ⟨toNat_ushiftRight_div v 5, (toNat_and_seven (v >>> 2)).trans (congrArg (· % 8) (toNat_ushiftRight_div v 2)),
    toNat_and_three v⟩

/-- The default expansion in the shift form of R114. -/
theorem expand332_default {cfg : Config} (h : cfg.expandFill = []) (v : Byte) :
    expand332 cfg v = ⟨(v >>> 5) <<< 5, ((v >>> 2) &&& 7) <<< 5, (v &&& 3) <<< 6⟩ := by
  obtain ⟨hr, hg, hb⟩ := expand332_default_toNat h v
  obtain ⟨hv5, hv2, hv0⟩ := storedBits_toNat v
  apply rgb_ext_toNat
  · rw [hr, toNat_shiftLeft_of_lt (by omega), hv5]
  · rw [hg, toNat_shiftLeft_of_lt (by omega), hv2]
  · rw [hb, toNat_shiftLeft_of_lt (by omega), hv0]

/-- The default re-quantization in the shift form of R115. -/
theorem req565_default {cfg : Config} (h : cfg.expandFill = []) (v : Byte) :
    req565 cfg v = ((v >>> 5).setWidth 16 <<< 13) ||| (((v >>> 2) &&& 7).setWidth 16 <<< 8) |||
      ((v &&& 3).setWidth 16 <<< 3) := by
  obtain ⟨hr, hg, hb⟩ := expand332_default_toNat h v
  obtain ⟨hv5, hv2, hv0⟩ := storedBits_toNat v
  rw [← toNat_setWidth_half] at hv5 hv2 hv0
  have hlow : ((v &&& 3).setWidth 16 <<< 3).toNat = v.toNat % 4 * 2 ^ 3 := by
    rw [toNat_shiftLeft_of_lt (by omega), hv0]
  have hmid : ((((v >>> 2) &&& 7).setWidth 16 <<< 8) ||| ((v &&& 3).setWidth 16 <<< 3)).toNat =
      v.toNat / 4 % 8 * 2 ^ 8 + v.toNat % 4 * 2 ^ 3 := by
    rw [toNat_shiftLeft_or (by omega) (by omega), hv2, hlow]
  apply BitVec.eq_of_toNat_eq
  rw [BitVec.or_assoc, toNat_shiftLeft_or (by omega) (by omega), hmid, hv5, req565, enc565_toNat, hr, hg, hb]
  omega

/-- Settles O24: the law for every fill, and the default's shift form. -/
theorem expand332KeepsTheStoredBits : Obligations.Expand332KeepsTheStoredBits := fun v s =>
  ⟨expand332 s.cfg v, rfl, enc332_expand332 s.cfg v, fun h => expand332_default h v⟩

/-- Settles O25: `REQ565` is that composition, and the default's shift form. -/
theorem req565RequantizesTheExpansion : Obligations.Req565RequantizesTheExpansion := fun v s =>
  ⟨req565 s.cfg v, rfl, rfl, fun h => req565_default h v⟩

/-- Settles O26: `ENC332` undoes the expansion, and `ENC565` undoes the split into fields. -/
theorem secondPassThroughTheCodecChangesNothing : Obligations.SecondPassThroughTheCodecChangesNothing :=
  fun cfg c => ⟨by rw [enc332_expand332], enc565_of_fields (enc565 c)⟩

/-! ## Every lawful expansion (R116, log 4) -/

/-- The bits of a colour that `ENC332` drops. -/
def droppedBits (c : Rgb) : Fill := ⟨c.r.extractLsb 4 0, c.g.extractLsb 4 0, c.b.extractLsb 5 0⟩

theorem droppedBits_toNat (c : Rgb) : (droppedBits c).r.toNat = c.r.toNat % 32 ∧
    (droppedBits c).g.toNat = c.g.toNat % 32 ∧ (droppedBits c).b.toNat = c.b.toNat % 64 := by
  rw [droppedBits, toNat_extract, toNat_extract, toNat_extract]
  omega

/-- The fill rows of an expansion: for each byte the bits its colour has under the stored ones. -/
def fillRows (f : Byte → Rgb) : List Fill := (List.range 256).map fun n => droppedBits (f (BitVec.ofNat 8 n))

/-- The row of a byte is its own colour's. -/
theorem fillOf_fillRows {cfg : Config} {f : Byte → Rgb} (h : cfg.expandFill = fillRows f) (v : Byte) :
    fillOf cfg v = droppedBits (f v) := by
  have hlt : v.toNat < (fillRows f).length := by simpa [fillRows] using v.isLt
  rw [fillOf, h, List.getD_eq_getElem _ _ hlt]
  simp [fillRows]

/-- The bits that `ENC332` keeps and the bits that it drops are the whole colour. -/
theorem expand332_enc332 {cfg : Config} {c : Rgb} (h : fillOf cfg (enc332 c) = droppedBits c) :
    expand332 cfg (enc332 c) = c := by
  obtain ⟨hr, hg, hb⟩ := droppedBits_toNat c
  apply rgb_ext_toNat
  · rw [expand332_r_toNat, h, hr, enc332_toNat]; omega
  · rw [expand332_g_toNat, h, hg, enc332_toNat]; omega
  · rw [expand332_b_toNat, h, hb, enc332_toNat]; omega

/-- Settles O27: the rows hold, for each byte, the bits that the law leaves open. -/
theorem everyLawfulExpansionIsAConfiguration : Obligations.EveryLawfulExpansionIsAConfiguration := by
  intro f law
  refine ⟨fillRows f, fun cfg hcfg v => ?_⟩
  have hfill : fillOf cfg (enc332 (f v)) = droppedBits (f v) := by rw [law, fillOf_fillRows hcfg]
  calc expand332 cfg v
    _ = expand332 cfg (enc332 (f v)) := by rw [law]
    _ = f v := expand332_enc332 hfill

end Sys2Proof.Machine
end

section
/-! Proofs for `42_pixel_codec.md`, part 2: where a pixel lies in the buffer, `SETPIXEL` and `GETBUFLEN`. -/

namespace Sys2Proof.Machine

/-! ## Pixel ranges (R118) -/

/-- The bytes of a pixel on the panel lie inside the buffer. -/
theorem pixelOff_add_bpp_le_fblen {cfg : Config} {x y : Nat} (hx : x < cfg.width) (hy : y < cfg.height) :
    pixelOff cfg x y + cfg.bpp ≤ cfg.fblen := by
  rw [pixelOff, ← Nat.succ_mul]
  exact Nat.mul_le_mul_right _ (pixelNumber_lt hx hy)

/-- A pixel with a smaller number ends before the other begins. -/
theorem pixelOff_add_bpp_le_pixelOff {cfg : Config} {x y x' y' : Nat}
    (h : x + y * cfg.width < x' + y' * cfg.width) : pixelOff cfg x y + cfg.bpp ≤ pixelOff cfg x' y' := by
  rw [pixelOff, ← Nat.succ_mul]
  exact Nat.mul_le_mul_right _ h

/-- Settles O30: the ranges follow the pixels' numbers, which are below `NPIX` and differ. -/
theorem pixelsLieInsideAndApart : Obligations.PixelsLieInsideAndApart := by
  intro cfg x y x' y' hx hy hx' _
  refine ⟨pixelOff_add_bpp_le_fblen hx hy, fun hne => ?_⟩
  rcases Nat.lt_trichotomy (x + y * cfg.width) (x' + y' * cfg.width) with h | h | h
  · exact .inl (pixelOff_add_bpp_le_pixelOff h)
  · obtain ⟨rfl, rfl⟩ := pixelNumber_inj hx hx' h
    exact absurd rfl hne
  · exact .inr (pixelOff_add_bpp_le_pixelOff h)

/-! ## `SETPIXEL` (R119) -/

/-- `SETPIXEL` in `Ready` is its range check and what follows from it. -/
theorem execSetpixel_ready {s : State} (hf : s.fault = none) (hp : s.phase = .ready) (x y : Int) (c : Rgb) :
    execSetpixel x y c s =
      if onPanel s.cfg x y then fbWrite (pixelOff s.cfg x.toNat y.toNat) (pixelBytes s.cfg c) s
      else raise (.fPixel x y) s := by
  rw [execSetpixel, whenLive_none hf, inPhase_eq hp]

/-- On the panel the pixel's bytes go to its offset. -/
theorem execSetpixel_onPanel {s : State} {m : Memory} (hf : s.fault = none) (hp : s.phase = .ready) (hm : s.fb = some m)
    {x y : Nat} (hx : x < s.cfg.width) (hy : y < s.cfg.height) (c : Rgb) :
    execSetpixel x y c s =
      .next { s with fb := some (Memory.writeBytes m (pixelOff s.cfg x y) (pixelBytes s.cfg c)) } := by
  have hfit : pixelOff s.cfg x y + (pixelBytes s.cfg c).length ≤ s.cfg.fblen := by
    rw [pixelBytes_length]
    exact pixelOff_add_bpp_le_fblen hx hy
  rw [execSetpixel_ready hf hp, if_pos (onPanel_natCast hx hy)]
  exact fbWrite_next hm hfit

/-- Off the panel nothing is written and `F_PIXEL` is the first fault. -/
theorem execSetpixel_offPanel {s : State} (hf : s.fault = none) (hp : s.phase = .ready) {x y : Int}
    (h : onPanel s.cfg x y = false) (c : Rgb) :
    execSetpixel x y c s = .next { s with fault := some (.fPixel x y) } := by
  rw [execSetpixel_ready hf hp, h, if_neg Bool.false_ne_true, raise_none hf]

/-- Off the panel on any of its four sides (D13). -/
theorem onPanel_eq_false {cfg : Config} {x y : Int}
    (h : x < 0 ∨ (cfg.width : Int) ≤ x ∨ y < 0 ∨ (cfg.height : Int) ≤ y) : onPanel cfg x y = false := by
  simp only [onPanel, Bool.and_eq_false_iff, decide_eq_false_iff_not]
  omega

/-- A reduced pixel is the byte with its own number. -/
theorem pixel_reduced {cfg : Config} (h : cfg.format = .reduced) (x y : Nat) (c : Rgb) :
    pixelOff cfg x y = x + y * cfg.width ∧ pixelBytes cfg c = [enc332 c] := by
  simp [pixelOff, Config.bpp, pixelBytes, h]

/-- A standard pixel is the two bytes from twice its number on. -/
theorem pixel_standard {cfg : Config} (h : cfg.format = .standard) (x y : Nat) (c : Rgb) :
    pixelOff cfg x y = (x + y * cfg.width) * 2 ∧ pixelBytes cfg c = [hi8 (enc565 c), lo8 (enc565 c)] := by
  simp [pixelOff, Config.bpp, pixelBytes, h]

/-- Settles O28: the write at the pixel's offset, read back by the laws of the memory in both formats. -/
theorem setpixelStoresExactlyItsPixel : Obligations.SetpixelStoresExactlyItsPixel := by
  intro x y c s m hf hp hm hwf hx hy
  refine ⟨_, execSetpixel_onPanel hf hp hm hx hy c, fun hfmt => ?_, fun hfmt => ?_⟩
  · obtain ⟨hoff, hbytes⟩ := pixel_reduced hfmt x y c
    rw [hoff, hbytes]
    refine ⟨Memory.read_writeBytes_same hwf (i := 0) (by simp), fun a ha => ?_⟩
    exact Memory.read_writeBytes_other hwf (by simp only [List.length_singleton]; omega)
  · obtain ⟨hoff, hbytes⟩ := pixel_standard hfmt x y c
    rw [hoff, hbytes]
    refine ⟨Memory.read_writeBytes_same hwf (i := 0) (by simp),
      Memory.read_writeBytes_same hwf (i := 1) (by simp), fun a ha ha' => ?_⟩
    exact Memory.read_writeBytes_other hwf (by simp only [List.length_cons, List.length_nil]; omega)

/-- Settles O29: each of the four sides fails the range check. -/
theorem setpixelOffThePanelRaisesFPixel : Obligations.SetpixelOffThePanelRaisesFPixel := fun _ _ c _ hf hp hout =>
  execSetpixel_offPanel hf hp (onPanel_eq_false hout) c

/-! ## `GETBUFLEN` (R120) -/

/-- Settles O31: the answer is `FBLEN`, in every state. -/
theorem getbuflenAnswersInEveryState : Obligations.GetbuflenAnswersInEveryState := fun _ => rfl

end Sys2Proof.Machine
end

section
/-! Proofs for `43_addressing_write.md`, part 1: the window, the address commands, and the payload of the buffer. -/

namespace Sys2Proof.Machine

/-! ## The window (R131) -/

/-- Settles O32: `WINDOW` where it fits, and ends that fit are not truncated. -/
theorem windowHoldsTheInclusiveEnds : Obligations.WindowHoldsTheInclusiveEnds := by
  intro s hf hwidth hheight hcol hrow
  have hw : windowFits s.cfg = true := (windowFits_iff _).2 ⟨hwidth, hheight, hcol, hrow⟩
  obtain ⟨hxs, hxe, hys, hye⟩ := windowEnds_toNat hw
  exact ⟨s.windowed, execWindow_fits hf hw, hxs, hxe, hys, hye, rfl⟩

/-! ## The address commands and the memory write (R132 to R134) -/

/-- The state after an address command: its two frames sent, the address scratch holding the four bytes. -/
def State.afterAddress (s : State) (op : Byte) (a : Addr4) : State :=
  { s.afterFrames (cmdFrame op ++ blockFrame a.bytes) with addr := a }

theorem State.CanSend.afterAddress {s : State} (h : s.CanSend) (op : Byte) (a : Addr4) :
    (s.afterAddress op a).CanSend :=
  ⟨h.live, h.dcLine, h.csLine, rfl⟩

theorem execCaset_canSend {s : State} (h : s.CanSend) :
    execCaset s = .next (s.afterAddress s.cfg.opCaset (addr4 s.xs s.xe)) :=
  (whenLive_none h.live _).trans (sendAddress_next h _ _)

theorem execRaset_canSend {s : State} (h : s.CanSend) :
    execRaset s = .next (s.afterAddress s.cfg.opRaset (addr4 s.ys s.ye)) :=
  (whenLive_none h.live _).trans (sendAddress_next h _ _)

theorem execRamwr_canSend {s : State} (h : s.CanSend) :
    execRamwr s = .next (s.afterFrames (cmdFrame s.cfg.opRamwr)) :=
  (whenLive_none h.live _).trans (sendFrame_cmd h _)

/-- Settles O33: a live `CASET` is the address command of `XS` and `XE`, and it can be sent. -/
theorem casetSendsTheColumnWindow : Obligations.CasetSendsTheColumnWindow := fun _ h => execCaset_canSend h

/-- Settles O34: a live `RASET` is the address command of `YS` and `YE`, and it can be sent. -/
theorem rasetSendsTheRowWindow : Obligations.RasetSendsTheRowWindow := fun _ h => ⟨execRaset_canSend h, rfl⟩

/-- Settles O35: a live `RAMWR` is one command frame, and the frame can be sent. -/
theorem ramwrSendsOneCommandFrame : Obligations.RamwrSendsOneCommandFrame := fun _ h => execRamwr_canSend h

/-! ## The payload (R135, R136) -/

/-- In parts of one length `k`, joined, the element `k * i + j` is the element `j` of part `i`. -/
theorem getElem?_flatMap_const {α β : Type} {f : α → List β} {k j : Nat} (hj : j < k) {l : List α}
    (h : ∀ a ∈ l, (f a).length = k) (i : Nat) : (l.flatMap f)[k * i + j]? = l[i]?.bind fun a => (f a)[j]? := by
  induction l generalizing i with
  | nil => simp
  | cons a l ih =>
    obtain ⟨ha, hl⟩ := List.forall_mem_cons.1 h
    rw [List.flatMap_cons]
    cases i with
    | zero => rw [List.getElem?_append_left (by omega)]; simp
    | succ i =>
      have hindex : k * (i + 1) + j - (f a).length = k * i + j := by rw [ha, Nat.mul_add]; omega
      rw [List.getElem?_append_right (by rw [ha, Nat.mul_add]; omega), hindex, ih hl, List.getElem?_cons_succ]

/-- The wire bytes of the stored byte at `a` stand in the payload from `2 / BPP * a` on. -/
theorem payload_getElem? {cfg : Config} {a j : Nat} (m : Memory) (ha : a < cfg.fblen) (hj : j < 2 / cfg.bpp) :
    (payload cfg m)[2 / cfg.bpp * a + j]? = (wireBytes cfg (Memory.read m a))[j]? := by
  rw [payload, getElem?_flatMap_const hj fun _ _ => wireBytes_length _ _, List.getElem?_range ha, Option.bind_some]

theorem bpp_standard {cfg : Config} (h : cfg.format = .standard) : cfg.bpp = 2 := by rw [Config.bpp, h]

theorem bpp_reduced {cfg : Config} (h : cfg.format = .reduced) : cfg.bpp = 1 := by rw [Config.bpp, h]

/-- Two bytes per pixel, whatever the format: `2 / BPP` for each of `BPP` stored bytes. -/
theorem payload_length (cfg : Config) (m : Memory) : (payload cfg m).length = 2 * (cfg.width * cfg.height) := by
  rw [payload, length_flatMap_const _ _ _ fun _ _ => wireBytes_length _ _, List.length_range, Config.fblen]
  cases hfmt : cfg.format with
  | standard => rw [bpp_standard hfmt]; omega
  | reduced => rw [bpp_reduced hfmt]; omega

/-- In standard format the payload is the stored bytes themselves. -/
theorem payload_standard {cfg : Config} (hfmt : cfg.format = .standard) (m : Memory) {a : Nat} (ha : a < cfg.fblen) :
    (payload cfg m)[a]? = some (Memory.read m a) := by
  simpa [bpp_standard hfmt, wireBytes, hfmt] using payload_getElem? (j := 0) m ha (by simp [bpp_standard hfmt])

/-- In reduced format each stored byte goes out re-quantized, high byte first. -/
theorem payload_reduced {cfg : Config} (hfmt : cfg.format = .reduced) (m : Memory) {a : Nat} (ha : a < cfg.fblen) :
    (payload cfg m)[2 * a]? = some (hi8 (req565 cfg (Memory.read m a))) ∧
      (payload cfg m)[2 * a + 1]? = some (lo8 (req565 cfg (Memory.read m a))) := by
  constructor
  · simpa [bpp_reduced hfmt, wireBytes, hfmt] using payload_getElem? (j := 0) m ha (by simp [bpp_reduced hfmt])
  · simpa [bpp_reduced hfmt, wireBytes, hfmt] using payload_getElem? (j := 1) m ha (by simp [bpp_reduced hfmt])

/-- Settles O37: the pixel's stored bytes lie inside the buffer, so the payload holds their wire bytes. -/
theorem payloadIsRowMajorHighByteFirst : Obligations.PayloadIsRowMajorHighByteFirst := by
  intro cfg m
  refine ⟨payload_length cfg m, fun x y hx hy => ?_⟩
  have hfit := pixelOff_add_bpp_le_fblen hx hy
  constructor
  · intro hfmt
    have hoff : 2 * (x + y * cfg.width) = pixelOff cfg x y := by rw [pixelOff, bpp_standard hfmt, Nat.mul_comm]
    rw [bpp_standard hfmt] at hfit
    rw [hoff]
    exact ⟨payload_standard hfmt m (by omega), payload_standard hfmt m (by omega)⟩
  · intro hfmt
    have hoff : x + y * cfg.width = pixelOff cfg x y := by rw [pixelOff, bpp_reduced hfmt, Nat.mul_one]
    rw [bpp_reduced hfmt] at hfit
    rw [hoff]
    exact payload_reduced hfmt m (by omega)

end Sys2Proof.Machine
end

section
/-! Proofs for `43_addressing_write.md`, part 2: the frame write, alone and as the last step of `UPDATE`. -/

namespace Sys2Proof.Machine

/-! ## `STREAM` (R137) -/

/-- The state after `STREAM` of the buffer `m`. -/
def State.streamed (s : State) (m : Memory) : State :=
  { s.afterFrames (blockFrame (payload s.cfg m)) with sp := s.cfg.fblen }

theorem execStream_canSend {s : State} {m : Memory} (h : s.CanSend) (hm : s.fb = some m) :
    execStream s = .next (s.streamed m) := by
  have h0 : State.CanSend { s with sp := 0 } := ⟨h.live, h.dcLine, h.csLine, h.released⟩
  rw [execStream_allocated h.live hm, sendFrame_block h0, andThen_next]
  rfl

/-- Settles O36: a live `STREAM` is the block frame of the payload, which has two bytes per pixel. -/
theorem streamSendsTheFrameInOneBlock : Obligations.StreamSendsTheFrameInOneBlock := fun s m h hm =>
  ⟨execStream_canSend h hm, by rw [blockFrame_length, payload_length]⟩

/-! ## `UPDATE` (R138, R139) -/

/-- The six transactions of `UPDATE`, in their order. They depend on the configuration and the buffer alone. -/
def updateEvents (cfg : Config) (m : Memory) : List Event :=
  cmdFrame cfg.opCaset ++ blockFrame (addr4 (winXs cfg) (winXe cfg)).bytes ++
    cmdFrame cfg.opRaset ++ blockFrame (addr4 (winYs cfg) (winYe cfg)).bytes ++
    cmdFrame cfg.opRamwr ++ blockFrame (payload cfg m)

theorem updateEvents_length (cfg : Config) (m : Memory) :
    (updateEvents cfg m).length = 32 + 2 * (cfg.width * cfg.height) := by
  simp only [updateEvents, List.length_append, blockFrame_length, payload_length, cmdFrame, Addr4.bytes,
    List.length_cons, List.length_nil]
  omega

/-! What the later steps of `UPDATE` read is as the earlier ones left it. -/

@[simp] theorem State.afterFrames_cfg (s : State) (es : List Event) : (s.afterFrames es).cfg = s.cfg := rfl
@[simp] theorem State.afterFrames_fb (s : State) (es : List Event) : (s.afterFrames es).fb = s.fb := rfl
@[simp] theorem State.afterAddress_cfg (s : State) (op : Byte) (a : Addr4) : (s.afterAddress op a).cfg = s.cfg := rfl
@[simp] theorem State.afterAddress_fb (s : State) (op : Byte) (a : Addr4) : (s.afterAddress op a).fb = s.fb := rfl
@[simp] theorem State.afterAddress_ys (s : State) (op : Byte) (a : Addr4) : (s.afterAddress op a).ys = s.ys := rfl
@[simp] theorem State.afterAddress_ye (s : State) (op : Byte) (a : Addr4) : (s.afterAddress op a).ye = s.ye := rfl
@[simp] theorem State.windowed_cfg (s : State) : s.windowed.cfg = s.cfg := rfl
@[simp] theorem State.windowed_fb (s : State) : s.windowed.fb = s.fb := rfl

/-- The state after `UPDATE` from a state whose buffer is `m`. -/
def State.updated (s : State) (m : Memory) : State :=
  { s.windowed.afterFrames (updateEvents s.cfg m) with
    addr := addr4 (winYs s.cfg) (winYe s.cfg), sp := s.cfg.fblen }

theorem State.CanSend.updated {s : State} (h : s.CanSend) (m : Memory) : (s.updated m).CanSend :=
  ⟨h.live, h.dcLine, h.csLine, rfl⟩

/-- A second `UPDATE` would write the same values again, but for the events it appends. -/
theorem State.updated_updated (s : State) (m : Memory) : (s.updated m).updated m =
    { s.updated m with trace := (s.updated m).trace ++ updateEvents s.cfg m } := rfl

/-- `UPDATE` where each of its steps can run. -/
theorem execUpdate_canSend {s : State} {m : Memory} (h : s.CanSend) (hp : s.phase = .ready)
    (hw : windowFits s.cfg = true) (hm : s.fb = some m) : execUpdate s = .next (s.updated m) := by
  have hwindow : s.windowed.CanSend := ⟨h.live, h.dcLine, h.csLine, h.released⟩
  have hcaset (op a) : (s.windowed.afterAddress op a).CanSend := hwindow.afterAddress op a
  have hraset (op a op' a') : ((s.windowed.afterAddress op a).afterAddress op' a').CanSend :=
    (hcaset op a).afterAddress op' a'
  rw [execUpdate_ready h.live hp, execWindow_fits h.live hw, andThen_next, execCaset_canSend hwindow, andThen_next,
    execRaset_canSend (hcaset _ _), andThen_next, execRamwr_canSend (hraset _ _ _ _), andThen_next,
    execStream_canSend (m := m) ((hraset _ _ _ _).afterFrames _) (by simpa using hm)]
  simp [State.streamed, State.afterAddress, State.afterFrames, State.windowed, State.updated, updateEvents]

/-- Settles O38: `UPDATE` where each of its steps can run, with ends that are not truncated. -/
theorem updateSendsOneWholeFrame : Obligations.UpdateSendsOneWholeFrame := by
  intro s m h hp hm hwidth hheight hcol hrow
  have hw : windowFits s.cfg = true := (windowFits_iff _).2 ⟨hwidth, hheight, hcol, hrow⟩
  obtain ⟨hxs, hxe, hys, hye⟩ := windowEnds_toNat hw
  exact ⟨_, _, _, _, _, hxs, hxe, hys, hye, rfl, updateEvents_length s.cfg m, execUpdate_canSend h hp hw hm⟩

/-! ## A second `UPDATE` -/

/-- An operation that gets as far as a frame and answers was able to send it. -/
theorem canSend_of_exec_eq_next {s t : State} {i : Instr} (hf : s.fault = none) (hi : ReachesAFrame s i)
    (hs : exec i s = .next t) : s.CanSend := by
  have noStop {r : Result} (hr : StopsFrames s r) : r = .next t := (exec_stops hr hf hi).symm.trans hs
  have hlines : ¬(s.dcPresent = false ∨ s.csPresent = false) := fun hno => by cases noStop (.noLines hno)
  obtain ⟨hd, hc⟩ : s.dcPresent = true ∧ s.csPresent = true := by simpa using hlines
  refine ⟨hf, hd, hc, ?_⟩
  cases ho : s.cs with
  | released => rfl
  | asserted => cases noStop (.openTransaction hd hc ho)

/-- `UPDATE` answers from a live `Ready` state only where each of its steps can run. -/
theorem execUpdate_eq_next {s t : State} (hf : s.fault = none) (hp : s.phase = .ready) (hs : execUpdate s = .next t) :
    ∃ m, s.CanSend ∧ windowFits s.cfg = true ∧ s.fb = some m ∧ t = s.updated m := by
  have hw : windowFits s.cfg = true := by
    by_contra hw
    rw [execUpdate_ready hf hp, execWindow_not_fits hf hw] at hs
    cases hs
  have h : s.CanSend := canSend_of_exec_eq_next (i := .update) hf ⟨hp, hw⟩ hs
  cases hfb : s.fb with
  | none =>
    rw [execUpdate_unallocated h hp hw hfb] at hs
    cases hs
  | some m =>
    rw [execUpdate_canSend h hp hw hfb] at hs
    cases hs
    exact ⟨m, h, hw, rfl, rfl⟩

/-- Settles O39: the first `UPDATE` leaves everything it depends on as it was, so the second runs the same way. -/
theorem secondUpdateEmitsTheSameEvents : Obligations.SecondUpdateEmitsTheSameEvents := by
  intro s t hf hp hs
  obtain ⟨m, h, hw, hm, rfl⟩ := execUpdate_eq_next hf hp hs
  refine ⟨updateEvents s.cfg m, rfl, updateEvents_length s.cfg m, ?_⟩
  rw [← State.updated_updated]
  exact execUpdate_canSend (h.updated m) hp hw hm

end Sys2Proof.Machine
end

section
/-! Proofs for `44_controller.md`, part 1: the pin requests and the steps of `INITIALIZE`, one by one. -/

namespace Sys2Proof.Machine

/-! ## Pin requests (R150) -/

/-- A pin request before `INITIALIZE` supplies its line. -/
theorem supplyLine_uninitialized {s : State} (hf : s.fault = none) (hp : s.phase = .uninitialized) (req : HostReq)
    (supply : State → State) : supplyLine req supply s = .next (supply s) := by
  rw [supplyLine, whenLive_none hf, inPhase_eq hp]

/-- Settles O40: each of the four requests is a pin request with its own line. -/
theorem pinRequestsSetTheirPresenceBit : Obligations.PinRequestsSetTheirPresenceBit := fun _ hf hp =>
  ⟨supplyLine_uninitialized hf hp _ _, supplyLine_uninitialized hf hp _ _, supplyLine_uninitialized hf hp _ _,
    supplyLine_uninitialized hf hp _ _⟩

/-! ## Reset pulse and settle time (R153, R154) -/

theorem emitAll_resetPulse (s : State) :
    s.emitAll resetPulse = { s with trace := s.trace ++ resetPulse, rst := .driven .high } := by
  rw [State.emitAll_eq]
  rfl

theorem execResetpulse_live {s : State} (hf : s.fault = none) :
    execResetpulse s = .next { s.emitAll (if s.rstPresent then resetPulse else []) with phase := .resetting } :=
  whenLive_none hf _

/-- Settles O42: the pulse with a reset line, no event without one. -/
theorem resetpulseDrivesHighLowHigh : Obligations.ResetpulseDrivesHighLowHigh := by
  intro s hf
  refine ⟨fun hpresent => ?_, fun habsent => ?_⟩
  · rw [exec, execResetpulse_live hf, if_pos hpresent, emitAll_resetPulse]
    rfl
  · rw [exec, execResetpulse_live hf, if_neg (by simp [habsent])]
    rfl

theorem execSettle_live {s : State} (hf : s.fault = none) :
    execSettle s = .next { s.emit (.wait s.cfg.settleMs) with phase := .runningInitTable } := whenLive_none hf _

/-- Settles O43: a wait leaves the lines as they are. -/
theorem settleWaitsOnce : Obligations.SettleWaitsOnce := fun _ hf => execSettle_live hf

/-! ## Colour mode and orientation (R156, R157) -/

theorem execColmod_canSend {s : State} (h : s.CanSend) :
    execColmod s = .next (s.afterFrames (cmdFrame s.cfg.opColmod ++ dataFrame (colmodByte s.cfg))) :=
  (whenLive_none h.live _).trans (sendCmdArg_next h _ _)

/-- Settles O44: a live `COLMOD` is a command with one argument, and it can be sent. -/
theorem colmodSendsTheSelectedCode : Obligations.ColmodSendsTheSelectedCode := fun _ h => execColmod_canSend h

/-- `ROT_TABLE` as a list of its eight entries (`10_state.md` R20). -/
theorem rotTable_eq_getElem? (cfg : Config) (i : Nat) :
    rotTable cfg i = [0x60, cfg.rot1, cfg.rot2, cfg.rot3, cfg.rot4, cfg.rot5, 0x00, cfg.rot7][i]? :=
  match i with
  | 0 | 1 | 2 | 3 | 4 | 5 | 6 | 7 | _ + 8 => rfl

theorem madctlByte_none {cfg : Config} (h : cfg.rotation = none) : madctlByte cfg = some cfg.madctlDefault := by
  rw [madctlByte, h]

theorem madctlByte_some {cfg : Config} {i : Nat} (h : cfg.rotation = some i) : madctlByte cfg = rotTable cfg i := by
  rw [madctlByte, h]

theorem execMadctl_canSend {s : State} {b : Byte} (h : s.CanSend) (hb : madctlByte s.cfg = some b) :
    execMadctl s = .next (s.afterFrames (cmdFrame s.cfg.opMadctl ++ dataFrame b)) := by
  rw [execMadctl, whenLive_none h.live, hb]
  exact sendCmdArg_next h _ _

/-- An orientation without a byte is refused (log 14). -/
theorem execMadctl_noByte {s : State} (hf : s.fault = none) (hb : madctlByte s.cfg = none) :
    execMadctl s = .refused .rConfig := by
  rw [execMadctl, whenLive_none hf, hb]

/-- Settles O45: the default without a rotation, an entry of the table up to index 7, none above. -/
theorem madctlSendsTheOrientationByte : Obligations.MadctlSendsTheOrientationByte := by
  intro s h
  refine ⟨fun b hb => execMadctl_canSend h ?_, fun i hrot hi => execMadctl_noByte h.live ?_⟩
  · rcases hb with ⟨hrot, rfl⟩ | ⟨i, hrot, hentry⟩
    · exact madctlByte_none hrot
    · rw [madctlByte_some hrot, rotTable_eq_getElem?, hentry]
  · rw [madctlByte_some hrot, rotTable_eq_getElem?]
    exact List.getElem?_eq_none hi

/-! ## Inversion (R158) -/

/-- The state after the `INVON` step, its command aside. -/
def State.configured (s : State) : State := { s with phase := .configured }

theorem execInvon_inverted {s : State} (h : s.CanSend) (hinv : s.cfg.invert = true) :
    execInvon s = .next (s.afterFrames (cmdFrame s.cfg.opInvon)).configured := by
  rw [execInvon, whenLive_none h.live, if_pos hinv, sendFrame_cmd h, andThen_next]
  rfl

theorem execInvon_plain {s : State} (hf : s.fault = none) (hinv : s.cfg.invert = false) :
    execInvon s = .next s.configured := by
  rw [execInvon, whenLive_none hf, if_neg (by simp [hinv]), andThen_next]
  rfl

/-- Settles O46: the two values of `INVERT`. -/
theorem invonSendsOnlyWhenInverting : Obligations.InvonSendsOnlyWhenInverting := fun _ hf =>
  ⟨fun hinv h => execInvon_inverted h hinv, fun hinv => execInvon_plain hf hinv⟩

/-! ## Buffer and backlight (R159) -/

/-- The state after `ALLOCATE` and `BACKLIGHT`. -/
def State.allocated (s : State) : State :=
  { s with
    trace := s.trace ++ (if s.blPresent then [.bl .high] else [])
    bl := if s.blPresent then .driven .high else s.bl
    fb := some [], phase := .ready }

theorem execAllocateBacklight_live {s : State} (hf : s.fault = none) :
    execAllocateBacklight s = .next s.allocated := by
  rw [execAllocateBacklight, whenLive_none hf, State.emitAll_eq, State.allocated]
  cases s.blPresent <;> simp [dcStep, csStep, rstStep, blStep]

/-- A newly allocated buffer reads 0 at each of its bytes (`20_memory.md` R43). -/
theorem fbRead_zeroFilled {s : State} (h : s.fb = some []) (a : Nat) :
    s.fbRead a = if a < s.cfg.fblen then some 0 else none := by
  rw [State.fbRead, h]
  rfl

/-- Settles O47: the allocated buffer is the empty memory, and `FBLEN` is its number of bytes. -/
theorem allocateZeroFillsAndEnablesTheBacklight : Obligations.AllocateZeroFillsAndEnablesTheBacklight := fun s hf =>
  ⟨s.allocated, execAllocateBacklight_live hf, rfl, fbRead_zeroFilled (s := s.allocated) rfl⟩

end Sys2Proof.Machine
end

section
/-! Proofs for `44_controller.md`, part 2: `INITIALIZE` on a well-formed table and on a malformed one (R151, R155,
R160). -/

namespace Sys2Proof.Machine

/-! ## Before the table -/

/-- The events of `INITIALIZE` before the table (R153, R154). -/
def settleEvents (s : State) : List Event := (if s.rstPresent then resetPulse else []) ++ [.wait s.cfg.settleMs]

/-- Before the table only the trace, `RST` and `PHASE` change. -/
theorem State.settled_eq (s : State) : s.settled = { s with
    trace := s.trace ++ settleEvents s
    rst := if s.rstPresent then .driven .high else s.rst
    phase := .runningInitTable } := by
  rw [State.settled, State.emitAll_eq, settleEvents]
  cases s.rstPresent <;> simp [resetPulse, dcStep, csStep, rstStep, blStep]

theorem State.CanSend.settled {s : State} (h : s.CanSend) : s.settled.CanSend :=
  (onlyWrites_settled s).canSend (by simp) h

@[simp] theorem State.settled_cfg (s : State) : s.settled.cfg = s.cfg := (onlyWrites_settled s).cfg

/-! ## After the table -/

/-- The events of `INITIALIZE` after the table, with the orientation byte `b` (R156 to R159). -/
def afterTableEvents (s : State) (b : Byte) : List Event :=
  (cmdFrame s.cfg.opColmod ++ dataFrame (colmodByte s.cfg)) ++ (cmdFrame s.cfg.opMadctl ++ dataFrame b) ++
    (if s.cfg.invert then cmdFrame s.cfg.opInvon else []) ++ (if s.blPresent then [.bl .high] else [])

/-- The state after the steps that follow the table. -/
def State.broughtUp (s : State) (b : Byte) : State :=
  { s with
    trace := s.trace ++ afterTableEvents s b
    dc := .driven .high, cs := .released
    bl := if s.blPresent then .driven .high else s.bl
    fb := some [], phase := .ready }

/-- After other frames, `INVON` sends its command only when `INVERT` = 1. -/
theorem execInvon_afterFrames {s : State} (h : s.CanSend) (es : List Event) : execInvon (s.afterFrames es) =
    .next (s.afterFrames (es ++ if s.cfg.invert then cmdFrame s.cfg.opInvon else [])).configured := by
  cases hinv : s.cfg.invert with
  | true => rw [execInvon_inverted (h.afterFrames es) hinv, State.afterFrames_afterFrames]; rfl
  | false => rw [execInvon_plain (h.afterFrames es).live hinv]; simp

theorem initAfterTable_canSend {s : State} {b : Byte} (h : s.CanSend) (hb : madctlByte s.cfg = some b) :
    initAfterTable s = .next (s.broughtUp b) := by
  have hallocate (es : List Event) : execAllocateBacklight (s.afterFrames es).configured =
      .next (s.afterFrames es).configured.allocated := execAllocateBacklight_live h.live
  rw [initAfterTable, execColmod_canSend h, andThen_next, execMadctl_canSend (h.afterFrames _) hb, andThen_next,
    State.afterFrames_afterFrames, execInvon_afterFrames h, andThen_next, hallocate]
  simp [State.allocated, State.configured, State.broughtUp, State.afterFrames, afterTableEvents]

/-! ## The whole of `INITIALIZE` -/

/-- `INITIALIZE` on a legal configuration is its table and what comes after it, from the settled state. -/
theorem execInitialise_canSend {s : State} (h : s.CanSend) (hp : s.phase = .uninitialized)
    (hcfg : configWF s.cfg = true) : execInitialise s = andThen (execRuntable s.settled) initAfterTable :=
  (execInitialise_legal h.live hp hcfg h.dcLine h.csLine).trans (initSequence_live h.live)

/-- Settles O48: `RUNTABLE` runs every record and leaves a state that can send, so each step after it runs. -/
theorem initializeBringsThePanelUp : Obligations.InitializeBringsThePanelUp := by
  intro s rs orient h hp hcfg hwf htable horient
  obtain ⟨u, htablerun, htp, htrace, -, -, hu⟩ :=
    runtableRunsEveryRecordInOrder rs s.settled h.settled hwf (by rw [State.settled_cfg, htable])
  have hcan : u.CanSend := by
    rw [hu]
    exact ⟨h.settled.live, h.settled.dcLine, h.settled.csLine, h.settled.released⟩
  have hbyte : madctlByte u.cfg = some orient := by rw [hu, State.settled_cfg, horient]
  have huagenda : u.agenda = s.agenda := by rw [hu, State.settled_eq]
  have hrun : execInitialise s = .next (u.broughtUp orient) := by
    rw [execInitialise_canSend h hp hcfg]
    exact (congrArg (andThen · initAfterTable) htablerun).trans (initAfterTable_canSend hcan hbyte)
  refine ⟨_, hrun, ?_, fun hagenda => ⟨huagenda.trans hagenda, hcan.live⟩, ?_, ?_⟩
  · rw [State.broughtUp, htrace, hu]
    simp [State.settled_eq, settleEvents, afterTableEvents, resetPulse, rstHighMs, rstLowMs, colmodByte]
  · rw [State.broughtUp, htp, hu]
    simp [State.settled_eq]
  · intro a
    rw [fbRead_zeroFilled rfl, State.broughtUp, hu, State.settled_cfg]

/-- Settles O49: `RUNTABLE` raises `F_TABLE` at the bad record, and no step after it does anything. -/
theorem initializeStopsAtAMalformedTable : Obligations.InitializeStopsAtAMalformedTable := by
  intro s rs bad e h hp hcfg hwf htable hbad hd
  obtain ⟨t, htablerun, htp, hdc, hfault, htrace, ht⟩ :=
    runtableStopsAtTheRecordThatDoesNotFit rs bad e s.settled h.settled hwf (by rw [State.settled_cfg, htable]) hbad hd
  have hrun : execInitialise s = .next t := by
    rw [execInitialise_canSend h hp hcfg]
    exact (congrArg (andThen · initAfterTable) htablerun).trans (initAfterTable_faulted hfault)
  refine ⟨t, hrun, ?_, ?_, ?_, ?_⟩
  · rw [htrace, State.settled_eq]
    simp [settleEvents, resetPulse, rstHighMs, rstLowMs]
  · rw [hdc, State.settled_eq]
  · rintro ⟨-, hlive⟩
    rw [hfault] at hlive
    cases hlive
  · exact ht.trans (by rw [htp, hfault, State.settled_eq])

end Sys2Proof.Machine
end

section
/-! Proofs for `44_controller.md`, part 3: `INITIALIZE` and `UPDATE` are their inner steps run one by one (D31). -/

namespace Sys2Proof.Machine

/-! ## Inner steps do not look at the agenda -/

theorem ignoresAgenda_execResetpulse : IgnoresAgenda execResetpulse :=
  ignoresAgenda_whenLive <| ignoresAgenda_next fun a s => by
    simp only [emitAll_withAgenda]
    rfl

theorem ignoresAgenda_execSettle : IgnoresAgenda execSettle :=
  ignoresAgenda_whenLive <| ignoresAgenda_next fun _ _ => rfl

theorem ignoresAgenda_execRuntable : IgnoresAgenda execRuntable :=
  ignoresAgenda_whenLive fun a s => ignoresAgenda_tableLoop s.cfg.tlen a { s with tp := 0 }

theorem ignoresAgenda_execColmod : IgnoresAgenda execColmod :=
  ignoresAgenda_whenLive fun a s => ignoresAgenda_sendCmdArg s.cfg.opColmod (colmodByte s.cfg) a s

theorem ignoresAgenda_execMadctl : IgnoresAgenda execMadctl :=
  ignoresAgenda_whenLive fun a s => by
    rw [show (s.withAgenda a).cfg = s.cfg from rfl]
    cases madctlByte s.cfg with
    | some b => exact ignoresAgenda_sendCmdArg s.cfg.opMadctl b a s
    | none => rfl

theorem ignoresAgenda_execInvon : IgnoresAgenda execInvon :=
  ignoresAgenda_whenLive <| ignoresAgenda_andThen
    (ignoresAgenda_ite (fun _ _ => Iff.rfl) (fun a s => ignoresAgenda_sendFrame (cmdFrame s.cfg.opInvon) a s)
      fun _ _ => rfl)
    fun _ _ => rfl

theorem ignoresAgenda_execAllocateBacklight : IgnoresAgenda execAllocateBacklight :=
  ignoresAgenda_whenLive <| ignoresAgenda_next fun a s => by
    simp only [emitAll_withAgenda]
    rfl

theorem ignoresAgenda_execWindow : IgnoresAgenda execWindow :=
  ignoresAgenda_whenLive <| ignoresAgenda_ite (fun _ _ => Iff.rfl) (fun _ _ => rfl) fun _ _ => rfl

theorem ignoresAgenda_execCaset : IgnoresAgenda execCaset :=
  ignoresAgenda_whenLive fun a s => ignoresAgenda_sendAddress s.cfg.opCaset (addr4 s.xs s.xe) a s

theorem ignoresAgenda_execRaset : IgnoresAgenda execRaset :=
  ignoresAgenda_whenLive fun a s => ignoresAgenda_sendAddress s.cfg.opRaset (addr4 s.ys s.ye) a s

theorem ignoresAgenda_execRamwr : IgnoresAgenda execRamwr :=
  ignoresAgenda_whenLive fun a s => ignoresAgenda_sendFrame (cmdFrame s.cfg.opRamwr) a s

theorem ignoresAgenda_execStream : IgnoresAgenda execStream := by
  intro a s
  cases hf : s.fault with
  | some f => rw [execStream, execStream, whenLive_some hf, whenLive_some (s := s.withAgenda a) hf]; rfl
  | none =>
    cases hfb : s.fb with
    | none => rw [execStream_unallocated hf hfb, execStream_unallocated (s := s.withAgenda a) hf hfb]; rfl
    | some m =>
      rw [execStream_allocated hf hfb, execStream_allocated (s := s.withAgenda a) hf hfb]
      exact ignoresAgenda_andThen (f := fun u => sendFrame (blockFrame (payload s.cfg m)) { u with sp := 0 })
        (k := fun t => .next { t with sp := s.cfg.fblen })
        (fun a u => ignoresAgenda_sendFrame _ a { u with sp := 0 }) (fun _ _ => rfl) a s

/-! ## Items one by one -/

/-- Instructions one after the other, up to the first stop. -/
def runInstrs : List Instr → State → Result
  | [], s => .next s
  | i :: is, s => andThen (exec i s) (runInstrs is)

/-- Instructions as issued items of the agenda. -/
def issueItems (is : List Instr) : List Item := is.map fun i => .issue (encode i)

/-- An inner step: the decoder reads it back from its bits, and it does not look at the agenda. -/
def IsInnerStep (i : Instr) : Prop := decode (encode i) = .ok i ∧ IgnoresAgenda (exec i)

/-- Inner steps issued one by one are the instructions one after the other. -/
theorem steps_issued {is : List Instr} (h : ∀ i ∈ is, IsInnerStep i) (s : State) :
    steps is.length (s.withAgenda (issueItems is)) = runInstrs is (s.withAgenda []) := by
  induction is generalizing s with
  | nil => rfl
  | cons i is ih =>
    obtain ⟨⟨hdecode, hignores⟩, his⟩ := List.forall_mem_cons.1 h
    have hstep : step (s.withAgenda (issueItems (i :: is))) = exec i (s.withAgenda (issueItems is)) :=
      step_issue (s := s.withAgenda (issueItems is)) hdecode
    rw [List.length_cons, steps, hstep, runInstrs, hignores, hignores]
    cases exec i s with
    | next t => exact ih his t
    | fault f => rfl
    | refused q => rfl

/-- Nothing follows the last step. -/
theorem andThen_next_right (r : Result) : andThen r .next = r := by
  cases r <;> rfl

/-- The inner steps of `INITIALIZE` (R151). -/
def initInstrs : List Instr := [.resetpulse, .settle, .runtable, .colmod, .madctl, .invon, .allocateBacklight]

/-- The inner steps of `UPDATE` (R138). -/
def updateInstrs : List Instr := [.window, .caset, .raset, .ramwr, .stream]

theorem isInnerStep_initInstrs : ∀ i ∈ initInstrs, IsInnerStep i := by
  simp only [initInstrs, List.forall_mem_cons]
  exact ⟨⟨rfl, ignoresAgenda_execResetpulse⟩, ⟨rfl, ignoresAgenda_execSettle⟩, ⟨rfl, ignoresAgenda_execRuntable⟩,
    ⟨rfl, ignoresAgenda_execColmod⟩, ⟨rfl, ignoresAgenda_execMadctl⟩, ⟨rfl, ignoresAgenda_execInvon⟩,
    ⟨rfl, ignoresAgenda_execAllocateBacklight⟩, by simp⟩

theorem isInnerStep_updateInstrs : ∀ i ∈ updateInstrs, IsInnerStep i := by
  simp only [updateInstrs, List.forall_mem_cons]
  exact ⟨⟨rfl, ignoresAgenda_execWindow⟩, ⟨rfl, ignoresAgenda_execCaset⟩, ⟨rfl, ignoresAgenda_execRaset⟩,
    ⟨rfl, ignoresAgenda_execRamwr⟩, ⟨rfl, ignoresAgenda_execStream⟩, by simp⟩

theorem runInstrs_initInstrs (s : State) : runInstrs initInstrs s = initSequence s := by
  simp only [initInstrs, runInstrs, andThen_next_right, exec, initSequence]

theorem runInstrs_updateInstrs {s : State} (hf : s.fault = none) (hp : s.phase = .ready) :
    runInstrs updateInstrs s = execUpdate s := by
  rw [execUpdate_ready hf hp]
  simp only [updateInstrs, runInstrs, andThen_next_right, exec]

/-- Settles O59: where its checks pass each request is its inner steps one after the other. -/
theorem requestsAreTheirSmallSteps : Obligations.RequestsAreTheirSmallSteps := by
  intro s hf hagenda
  have hnone : s.withAgenda [] = s := by rw [State.withAgenda, ← hagenda]
  refine ⟨fun hp hcfg hd hc => ?_, fun hp => ?_⟩
  · calc steps initItems.length { s with agenda := initItems }
      _ = runInstrs initInstrs (s.withAgenda []) := steps_issued isInnerStep_initInstrs s
      _ = initSequence s := by rw [hnone, runInstrs_initInstrs]
      _ = exec .initialise s := (execInitialise_legal hf hp hcfg hd hc).symm
  · calc steps updateItems.length { s with agenda := updateItems }
      _ = runInstrs updateInstrs (s.withAgenda []) := steps_issued isInnerStep_updateInstrs s
      _ = exec .update s := by rw [hnone, runInstrs_updateInstrs hf hp, exec]

end Sys2Proof.Machine
end

section
/-! Proofs for `60_exceptions.md`, part 1: what a step runs, and the requests that are refused or raise `F_PHASE`
(R181, R184, R185, R190, R193, R194). -/

namespace Sys2Proof.Machine

/-! ## The step (R193, R194, R200) -/

/-- An issued operation whose bits decode is run. -/
theorem runItem_issue {c : Code} {i : Instr} (h : decode c = .ok i) (s : State) :
    runItem (.issue c) s = exec i s := by
  rw [runItem, h]

/-- With nothing asked the block is idle. -/
theorem step_nil {s : State} (h : s.agenda = []) : step s = .next s := by
  rw [step, takeItem, h]

/-- Settles O7: the step takes the item off and runs what its bits decode to. -/
theorem stepRunsTheDecodedInstruction : Obligations.StepRunsTheDecodedInstruction := fun _ _ _ _ ha hd =>
  (step_cons ha).trans (runItem_issue hd _)

/-- Settles O11: the item is a reset under the configuration that stands, and an idle block answers its own state. -/
theorem blockResetClearsAndIdleKeeps : Obligations.BlockResetClearsAndIdleKeeps :=
  ⟨fun _ _ ha => step_cons ha, fun _ ha => step_nil ha⟩

/-! ## `R_REQ` and `R_BUSY` (R184, R185) -/

/-- The codes from 8 on are reserved, whatever operands come with them (R67). -/
theorem decodeRequest_reserved {req : BitVec 4} (h : 8 ≤ req.toNat) (ints : List Int) (bytes : List Byte) :
    decodeRequest req ints bytes = .error (.reservedRequest req) := by
  unfold decodeRequest
  split
  case h_9 => rw [if_neg (by omega)]
  all_goals omega

/-- A reserved code is refused in every state. -/
theorem runItem_reserved {req : BitVec 4} (h : 8 ≤ req.toNat) (ints : List Int) (bytes : List Byte) (s : State) :
    runItem (.issue (.request req ints bytes)) s = .refused (.rReq req) := by
  rw [runItem, decode, decodeRequest_reserved h]

/-- Settles O10: both refusals are made when the item is taken, before the state is looked at. -/
theorem reservedAndOverlappedRequestsAreRefused : Obligations.ReservedAndOverlappedRequestsAreRefused := fun _ _ =>
  ⟨fun _ ints bytes hreq ha => (step_cons ha).trans (runItem_reserved hreq ints bytes _), fun _ ha => step_cons ha⟩

/-! ## `F_PHASE` (R181, R190) -/

/-- A live request that is bound to another phase raises `F_PHASE`, whatever it would have done (D14). -/
theorem whenLive_inPhase_ne {s : State} {p : Phase} (hf : s.fault = none) (hp : s.phase ≠ p) (req : HostReq)
    (k : State → Result) :
    whenLive s (fun s => inPhase p req s k) = .next { s with fault := some (.fPhase req s.phase) } := by
  rw [whenLive_none hf, inPhase_ne hp, raise_none hf]

/-- Settles O41: the phase check is the first of each of the seven requests. -/
theorem requestsInTheWrongPhaseRaiseFPhase : Obligations.RequestsInTheWrongPhaseRaiseFPhase := by
  intro s x y c hf
  refine ⟨fun hp => ?_, fun hp => ?_⟩
  · have raises := whenLive_inPhase_ne hf hp
    exact ⟨raises .setrstpin _, raises .setdcpin _, raises .setblpin _, raises .setcspin _, raises .initialise _⟩
  · have raises := whenLive_inPhase_ne hf hp
    exact ⟨raises .update _, raises .setpixel _⟩

/-! ## `R_CONFIG` (R184) -/

/-- A rotation index above 7 is not legal (R8). -/
theorem rotationOk_eq_false {c : Config} {i : Nat} (h : c.rotation = some i) (hi : 7 < i) : rotationOk c = false := by
  rw [rotationOk, h]
  exact decide_eq_false (by omega)

/-- A panel without a row or column, a window end above 65535 and a rotation index above 7 are each illegal (R8). -/
theorem not_configWF {c : Config} (h : c.width = 0 ∨ c.height = 0 ∨ 65535 < c.colOffset + c.width - 1 ∨
    65535 < c.rowOffset + c.height - 1 ∨ ∃ i, c.rotation = some i ∧ 7 < i) : ¬ configWF c = true := by
  intro hwf
  obtain ⟨hw, hrot⟩ := Bool.and_eq_true_iff.1 hwf
  rw [windowFits_iff] at hw
  rcases h with h | h | h | h | ⟨i, hi, h⟩
  · omega
  · omega
  · omega
  · omega
  · rw [rotationOk_eq_false hi h] at hrot
    cases hrot

/-- `INITIALIZE` in its phase, where one of its two conditions fails. -/
theorem execInitialise_refused {s : State} (hf : s.fault = none) (hp : s.phase = .uninitialized)
    (h : ¬ (configWF s.cfg = true ∧ s.linesPresent = true)) : execInitialise s = .refused .rConfig := by
  rw [execInitialise, whenLive_none hf, inPhase_eq hp, if_neg (by rwa [Bool.and_eq_true])]

/-- Settles O50: an illegal value fails `ConfigWF`, an absent line the other condition. -/
theorem initializeIsRefusedWithoutConfigOrLines : Obligations.InitializeIsRefusedWithoutConfigOrLines := by
  intro s hf hp hbad
  refine execInitialise_refused hf hp fun ⟨hcfg, hlines⟩ => ?_
  obtain ⟨hdc, hcs⟩ := Bool.and_eq_true_iff.1 hlines
  simp only [hdc, hcs, Bool.true_eq_false, or_false] at hbad
  exact not_configWF hbad hcfg

end Sys2Proof.Machine
end

section
/-! Proofs for `60_exceptions.md`, part 2: nothing runs after a fault, and only a reset of the block ends it (R186,
R187). -/

namespace Sys2Proof.Machine

/-! ## Instructions after a fault -/

/-- A pin request after a fault supplies nothing. -/
theorem supplyLine_faulted {s : State} {f : Raised} (hf : s.fault = some f) (req : HostReq) (supply : State → State) :
    supplyLine req supply s = .next s := whenLive_some hf _

/-- After a fault an instruction does nothing; `GETBUFLEN` and the codec functions, which do not look at `FAULT`, still
answer (R110, D27). -/
theorem exec_faulted {s : State} {f : Raised} (hf : s.fault = some f) (i : Instr) :
    exec i s = .next s ∨ i = .getbuflen ∨
      ∃ out, exec i s = .next { s with codec := out } ∧
        ((∃ c, i = .enc332 c) ∨ (∃ c, i = .enc565 c) ∨ (∃ p, i = .dec565 p) ∨ (∃ v, i = .expand332 v) ∨
          ∃ v, i = .req565 v) := by
  cases i with
  | getbuflen => exact .inr (.inl rfl)
  | enc332 c => exact .inr (.inr ⟨_, rfl, .inl ⟨c, rfl⟩⟩)
  | enc565 c => exact .inr (.inr ⟨_, rfl, .inr (.inl ⟨c, rfl⟩)⟩)
  | dec565 p => exact .inr (.inr ⟨_, rfl, .inr (.inr (.inl ⟨p, rfl⟩))⟩)
  | expand332 v => exact .inr (.inr ⟨_, rfl, .inr (.inr (.inr (.inl ⟨v, rfl⟩)))⟩)
  | req565 v => exact .inr (.inr ⟨_, rfl, .inr (.inr (.inr (.inr ⟨v, rfl⟩)))⟩)
  | setrstpin | setdcpin | setblpin | setcspin => exact .inl (supplyLine_faulted hf _ _)
  | tblRec | tblRecD | cmdw | datw | blkw | initialise | update | setpixel | caset | raset | ramwr | colmod | madctl
  | invon | runtable | resetpulse | settle | allocateBacklight | window | stream =>
    left
    rw [exec]
    exact whenLive_some hf _

/-! ## Steps after a fault -/

/-- The fault `f` is set and no reset of the block is to come. -/
structure State.Faulted (f : Raised) (s : State) : Prop where
  fault : s.fault = some f
  noReset : .blockReset ∉ s.agenda

/-- Every instruction leaves a set fault as it is. -/
theorem faulted_exec (f : Raised) (i : Instr) : Keeps (State.Faulted f) (exec i) := by
  intro s t h hs
  refine ⟨?_, by rw [(onlyWrites_exec hs).agenda]; exact h.noReset⟩
  rcases exec_faulted h.fault i with hsame | rfl | ⟨out, hout, -⟩
  · cases hsame.symm.trans hs
    exact h.fault
  · exact ((onlyWrites_exec hs).fault (by simp [writes])).trans h.fault
  · cases hout.symm.trans hs
    exact h.fault

/-- Every item but a reset of the block leaves a set fault as it is. -/
theorem faulted_runItem (f : Raised) {it : Item} (hit : it ≠ .blockReset) : Keeps (State.Faulted f) (runItem it) := by
  intro s t h hs
  cases it with
  | issue c =>
    rw [runItem] at hs
    split at hs
    · exact faulted_exec f _ h hs
    · cases hs
    · cases hs
  | overlap c => cases hs
  | tableStep =>
    rw [runItem, tableTurn, whenLive_some h.fault] at hs
    cases hs
    exact h
  | blockReset => exact absurd rfl hit

theorem faulted_step (f : Raised) : Keeps (State.Faulted f) step := by
  intro s t h hs
  cases ha : s.agenda with
  | nil =>
    cases (step_nil ha).symm.trans hs
    exact h
  | cons it rest =>
    obtain ⟨hit, hrest⟩ : .blockReset ≠ it ∧ .blockReset ∉ rest := by simpa [ha] using h.noReset
    have htaken : State.Faulted f { s with agenda := rest } := ⟨h.fault, hrest⟩
    exact faulted_runItem f hit.symm htaken ((step_cons ha).symm.trans hs)

/-- What one step keeps, any number of steps keeps. -/
theorem keeps_steps {P : State → Prop} (h : Keeps P step) (n : Nat) : Keeps P (steps n) := by
  induction n with
  | zero =>
    intro s t hs ht
    cases ht
    exact hs
  | succ n ih => exact keeps_andThen h ih

/-- Settles O52: no instruction has an effect but the named ones, so every step keeps the fault, and a final state has
none. -/
theorem nothingRunsAfterAFault : Obligations.NothingRunsAfterAFault := by
  refine ⟨fun s f i hf => exec_faulted hf i, fun n s f hf hreset => ?_⟩
  have stays (t : State) (ht : steps n s = .next t) : t.fault = some f :=
    (keeps_steps (faulted_step f) n ⟨hf, hreset⟩ ht).fault
  refine ⟨stays, ?_⟩
  rintro ⟨t, ht, -, hlive⟩
  cases (stays t ht).symm.trans hlive

end Sys2Proof.Machine
end

section
/-! Proofs for `30_encoding.md`, the round trip: the bits of every format read back, and from them every instruction
(R61, R67, R68). -/

namespace Sys2Proof.Machine

/-! ## The bits of one format -/

/-- The bytes of a record alone read back (R61, R64). -/
theorem decode_recordBytes (opc : Byte) {args : List Byte} (dly : Option Byte) (h : args.length ≤ 127) :
    decode (.record (recordBytes opc args dly)) = .ok (recInstr opc args dly) := by
  have hread := decodeRecord_bytes opc args [] dly h
  rw [List.append_nil] at hread
  rw [decode, hread]
  rfl

/-- A command frame reads back: its word has `DC` = 0 (R68). -/
theorem decode_commandFrame (b : Byte) : decode (.frame .command [wireWord false b]) = .ok (.cmdw b) := by
  simp [decode, decodeFrame]

/-- A data frame reads back: its word has `DC` = 1 (R68). -/
theorem decode_dataFrame (b : Byte) : decode (.frame .data [wireWord true b]) = .ok (.datw b) := by
  simp [decode, decodeFrame]

/-- A block frame of any number of bytes reads back: every word has `DC` = 1 (R68). -/
theorem decode_blockFrame (bs : List Byte) : decode (.frame .block (bs.map (wireWord true))) = .ok (.blkw bs) := by
  have hdc : (bs.map (wireWord true)).all wireDc = true := by simp
  have hbytes : (bs.map (wireWord true)).map wireByte = bs :=
    Function.LeftInverse.list_map (wireByte_wireWord true) bs
  rw [decode, decodeFrame, if_pos hdc, hbytes]

/-- A half given as its two bytes, high byte first, reads back (`20_memory.md` R45). -/
theorem decode_halfOperand (p : Half) : decode (.function 2 [hi8 p, lo8 p]) = .ok (.dec565 p) := by
  rw [decode, decodeFunction, hi8_append_lo8]

/-! ## Every instruction -/

/-- Settles O2: records, frames and the half operand by the laws above; the bits of every other row are constants with
the operands beside them, on which the decoder computes. Only a record's count needs `Instr.wf`. -/
theorem decodeOfEncodeIsTheInstruction : Obligations.DecodeOfEncodeIsTheInstruction := by
  intro i hwf
  cases i with
  | tblRec opc args => exact decode_recordBytes opc none (of_decide_eq_true hwf)
  | tblRecD opc args dly => exact decode_recordBytes opc (some dly) (of_decide_eq_true hwf)
  | cmdw b => exact decode_commandFrame b
  | datw b => exact decode_dataFrame b
  | blkw bs => exact decode_blockFrame bs
  | dec565 p => exact decode_halfOperand p
  | setrstpin | setdcpin | setblpin | setcspin | initialise | update | setpixel | getbuflen => rfl
  | caset | raset | ramwr | colmod | madctl | invon => rfl
  | runtable | resetpulse | settle | allocateBacklight | window | stream => rfl
  | enc332 | enc565 | expand332 | req565 => rfl

end Sys2Proof.Machine
end
